-- ==== Sys2Proof/Word.lean ====
section
/-! DEFINITION. The value model: cells, addresses and the two reserved constants (10_state.md). -/

namespace Sys2Proof

/-- A NumericCell: one integer, the value of every memory cell and of `Acc` (R17). -/
abbrev Cell := Int

/-- An address: an integer at least 0, with no upper bound and no width (R9, R22). -/
abbrev Address := Nat

/-- The canonical true cell (R19). -/
def trueCell : Cell := 1

/-- The canonical false cell (R19). -/
def falseCell : Cell := 0

end Sys2Proof
end

