-- ==== Sys2Proof/Config.lean ====
section
/-! DEFINITION. The parameters a machine is constructed with: `BUS_TABLE`, `OPCODE_MAP` and `CELL_BOUNDS` (00_scope.md R8). `RAM_CAPACITY` is the capacity of the RAM itself (Machine/State.lean). The reference values stand in Decode.lean. -/

namespace Sys2Proof

/-- The 15 mnemonics, in the order of the instruction table (R61). -/
inductive Mnemonic where
  | halt | st | ld | add | neg | mul | div | sqrt | eq | gt | not | or | and | jmp | jif
deriving DecidableEq, Repr

/-- Every mnemonic once, in table order (R61). -/
def Mnemonic.all : List Mnemonic :=
  [.halt, .st, .ld, .add, .neg, .mul, .div, .sqrt, .eq, .gt, .not, .or, .and, .jmp, .jif]

/-- `OPCODE_MAP`: the integer each mnemonic's opcode cell holds (R8, R64). -/
structure OpcodeMap where
  halt : Cell
  st   : Cell
  ld   : Cell
  add  : Cell
  neg  : Cell
  mul  : Cell
  div  : Cell
  sqrt : Cell
  eq   : Cell
  gt   : Cell
  not  : Cell
  or   : Cell
  and  : Cell
  jmp  : Cell
  jif  : Cell
deriving DecidableEq, Repr

/-- `OPCODE_MAP[m]` (R64). -/
def OpcodeMap.value (map : OpcodeMap) : Mnemonic → Cell
  | .halt => map.halt
  | .st   => map.st
  | .ld   => map.ld
  | .add  => map.add
  | .neg  => map.neg
  | .mul  => map.mul
  | .div  => map.div
  | .sqrt => map.sqrt
  | .eq   => map.eq
  | .gt   => map.gt
  | .not  => map.not
  | .or   => map.or
  | .and  => map.and
  | .jmp  => map.jmp
  | .jif  => map.jif

/-- A half-open interval of addresses. The length is an integer, so that a negative one can be
refused at attach time (R23, R45). -/
structure AddressRange where
  start  : Address
  length : Int
deriving DecidableEq, Repr

/-- One entry of the bus attachment table: a range and the device that owns it (R34). A device is
named by its place in `State.devices`, 0 being the machine's RAM. -/
structure Attachment where
  range  : AddressRange
  device : Nat
deriving DecidableEq, Repr

/-- A bounded `CELL_BOUNDS = (lo, hi)` (R8, R17). -/
structure CellBounds where
  lo : Cell
  hi : Cell
deriving DecidableEq, Repr

/-- What construction fixes and nothing changes afterwards (R33, R34). -/
structure Config where
  busTable   : List Attachment
  opcodes    : OpcodeMap
  cellBounds : Option CellBounds
deriving DecidableEq, Repr

end Sys2Proof
end

