-- ==== Sys2Proof/Machine/Bus.lean ====
section
/-! DEFINITION. Address ranges and the bus attachment table: which range owns an address, and when two ranges overlap (10_state.md R23, 20_memory.md R45). -/

namespace Sys2Proof

/-- `start ≤ a < start + length` (R23). -/
def AddressRange.owns (r : AddressRange) (a : Address) : Bool :=
  decide (r.start ≤ a ∧ (a : Int) < r.start + r.length)

/-- Do the two ranges own a common address? A range that owns nothing overlaps nothing (R45). -/
def AddressRange.overlaps (r q : AddressRange) : Bool :=
  decide (max (r.start : Int) q.start < min (r.start + r.length) (q.start + q.length))

/-- No range has a negative length and no two ranges overlap: what `attach` ensures (R45). -/
def busTableValid (table : List Attachment) : Bool :=
  decide (∀ e ∈ table, 0 ≤ e.range.length) &&
    decide (table.Pairwise fun e f => e.range.overlaps f.range = false)

/-- The table entry whose range owns the address, searched in table order (R46). -/
def busFind (table : List Attachment) (a : Address) : Option Attachment :=
  table.find? fun e => e.range.owns a

end Sys2Proof
end

