-- ==== Sys2Proof/Machine/Cells.lean ====
section
/-! DEFINITION. Which integers a cell may hold under `CELL_BOUNDS`, and the integer arithmetic of `Div` and `Sqrt`: `roundAway` and `sqrtUp` (00_scope.md R14). -/

namespace Sys2Proof

/-- Does `CELL_BOUNDS` admit the value? With no bounds every integer is admitted (R14, R17). -/
def Config.admits (cfg : Config) (v : Cell) : Bool :=
  match cfg.cellBounds with
  | none   => true
  | some b => decide (b.lo ≤ v ∧ v ≤ b.hi)

/-- `roundAway(q)`: 0 for 0, else `sign(q) * ceil(|q|)` (R14). -/
def roundAway (q : Rat) : Int :=
  if q = 0 then 0 else if 0 < q then q.ceil else -((-q).ceil)

/-- Floor of the square root, two bits of `n` a round; `fuel` rounds suffice when `n < 4 ^ fuel`. -/
def floorSqrt : Nat → Nat → Nat
  | 0, _ => 0
  | fuel + 1, n =>
    let r := 2 * floorSqrt fuel (n / 4)
    if (r + 1) * (r + 1) ≤ n then r + 1 else r

/-- `sqrtUp(v)` for `v ≥ 0`: the least `r ≥ 0` with `r * r ≥ v` (R14). `Sqrt` never calls it on a
negative value. -/
def sqrtUp (v : Int) : Int :=
  let n := v.toNat
  let r := floorSqrt (n.log2 + 1) n
  if r * r = n then r else r + 1

end Sys2Proof
end

