-- ==== Sys2Proof/Syntax.lean ====
section
/-! DEFINITION. The instruction set: one constructor per row of spec/opcode_table.json (30_encoding.md R61). -/

namespace Sys2Proof

/-- The 15 instructions. A format `A` instruction carries its operand address, a format `Z`
instruction carries nothing (R63). -/
inductive Instr where
  | halt
  | st (a : Address)
  | ld (a : Address)
  | add (a : Address)
  | neg
  | mul (a : Address)
  | div (a : Address)
  | sqrt
  | eq (a : Address)
  | gt (a : Address)
  | not
  | or (a : Address)
  | and (a : Address)
  | jmp (a : Address)
  | jif (a : Address)
deriving DecidableEq, Repr

/-- The mnemonic of an instruction (R61). -/
def Instr.mnemonic : Instr → Mnemonic
  | .halt  => .halt
  | .st _  => .st
  | .ld _  => .ld
  | .add _ => .add
  | .neg   => .neg
  | .mul _ => .mul
  | .div _ => .div
  | .sqrt  => .sqrt
  | .eq _  => .eq
  | .gt _  => .gt
  | .not   => .not
  | .or _  => .or
  | .and _ => .and
  | .jmp _ => .jmp
  | .jif _ => .jif

/-- The operand address, where the format has one (R63). -/
def Instr.operand? : Instr → Option Address
  | .halt  => none
  | .st a  => some a
  | .ld a  => some a
  | .add a => some a
  | .neg   => none
  | .mul a => some a
  | .div a => some a
  | .sqrt  => none
  | .eq a  => some a
  | .gt a  => some a
  | .not   => none
  | .or a  => some a
  | .and a => some a
  | .jmp a => some a
  | .jif a => some a

end Sys2Proof
end

