-- ==== Sys2Proof/WellFormed.lean ====
section
/-! DEFINITION. Well-formed parameters and instructions: what the spec requires of `OPCODE_MAP`, `CELL_BOUNDS` and `BUS_TABLE`, and when an instruction can stand in cells. -/

namespace Sys2Proof

/-- `OPCODE_MAP` is injective (R65). -/
def OpcodeMap.injective (map : OpcodeMap) : Bool :=
  decide (Mnemonic.all.map map.value).Nodup

/-- A bounded `CELL_BOUNDS` contains 0 and 1 (R99). -/
def Config.boundsValid (cfg : Config) : Bool :=
  cfg.admits falseCell && cfg.admits trueCell

/-- The parameters meet every requirement the spec puts on them (R45, R65, R99). -/
def Config.wellFormed (cfg : Config) : Bool :=
  cfg.opcodes.injective && cfg.boundsValid && busTableValid cfg.busTable

/-- An instruction is well-formed when each of its cells is one that `CELL_BOUNDS` admits. With
`CELL_BOUNDS = none` every instruction is: any address is a legal operand (R71). -/
def Instr.wellFormed (cfg : Config) (i : Instr) : Bool :=
  cfg.admits (cfg.opcodes.value i.mnemonic) &&
    match i.operand? with
    | none   => true
    | some a => cfg.admits a

end Sys2Proof
end

