-- ==== Sys2Proof/Decode.lean ====
section
/-! DEFINITION. Encoding: the reference parameters, the decoder and the encoder (30_encoding.md). -/

namespace Sys2Proof

/-- The default `OPCODE_MAP`: the table's order from 0 (R64). -/
def OpcodeMap.reference : OpcodeMap where
  halt := 0
  st   := 1
  ld   := 2
  add  := 3
  neg  := 4
  mul  := 5
  div  := 6
  sqrt := 7
  eq   := 8
  gt   := 9
  not  := 10
  or   := 11
  and  := 12
  jmp  := 13
  jif  := 14

/-- The reference `RAM_CAPACITY` (R8, D9). -/
def referenceCapacity : Nat := 256

/-- The reference configuration: one RAM over `0 .. RAM_CAPACITY-1`, the default `OPCODE_MAP`,
unbounded cells (R8, R53). -/
def Config.reference : Config where
  busTable   := [{ range := { start := 0, length := referenceCapacity }, device := 0 }]
  opcodes    := OpcodeMap.reference
  cellBounds := none

/-- Why a list of cells holds no instruction. -/
inductive DecodeError where
  /-- The first cell is no mnemonic's opcode (R70). -/
  | unknownOpcode (opcode : Cell)
  /-- The operand cell is negative (R66). -/
  | negativeOperand (value : Cell)
  /-- There are fewer cells than the instruction's length. -/
  | truncated
deriving DecidableEq, Repr

/-- What the opcode cell says of the rest: format `Z`, the whole instruction; or format `A`, one
operand cell to come (R63). -/
inductive Form where
  | z (i : Instr)
  | a (build : Address → Instr)

/-- The format of each mnemonic (R63). -/
def Mnemonic.form : Mnemonic → Form
  | .halt => .z .halt
  | .st   => .a .st
  | .ld   => .a .ld
  | .add  => .a .add
  | .neg  => .z .neg
  | .mul  => .a .mul
  | .div  => .a .div
  | .sqrt => .z .sqrt
  | .eq   => .a .eq
  | .gt   => .a .gt
  | .not  => .z .not
  | .or   => .a .or
  | .and  => .a .and
  | .jmp  => .a .jmp
  | .jif  => .a .jif

/-- `ARITY`: the operand count (R61). -/
def Mnemonic.arity (m : Mnemonic) : Nat :=
  match m.form with
  | .z _ => 0
  | .a _ => 1

/-- The instruction's length in cells, `1 + ARITY` (R62, R68). -/
def Instr.length (i : Instr) : Nat := 1 + i.mnemonic.arity

/-- The mnemonic the opcode cell selects, by whole-value equality (R64). -/
def OpcodeMap.mnemonic? (map : OpcodeMap) (v : Cell) : Option Mnemonic :=
  Mnemonic.all.find? fun m => decide (map.value m = v)

/-- Stage 2, decode: the format the opcode cell selects, if it selects one (R70, R76). -/
def decodeOpcode (map : OpcodeMap) (v : Cell) : Option Form :=
  match map.mnemonic? v with
  | none   => none
  | some m => some m.form

/-- Stage 3, operand conversion: the cell is the address, and a negative one is none (R66, R78). -/
def decodeOperand (c : Cell) : Option Address :=
  if c < 0 then none else some c.toNat

/-- The instruction at the head of a list of cells, with the cells after it. Total: every list
either decodes or is rejected by name. -/
def decode (map : OpcodeMap) : List Cell → Except DecodeError (Instr × List Cell)
  | [] => .error .truncated
  | v :: rest =>
    match decodeOpcode map v with
    | none => .error (.unknownOpcode v)
    | some (.z i) => .ok (i, rest)
    | some (.a build) =>
      match rest with
      | [] => .error .truncated
      | c :: rest' =>
        match decodeOperand c with
        | none => .error (.negativeOperand c)
        | some addr => .ok (build addr, rest')

/-- The cells of an instruction: the opcode, then the operand (R62). -/
def encode (map : OpcodeMap) (i : Instr) : List Cell :=
  map.value i.mnemonic ::
    match i.operand? with
    | none   => []
    | some a => [(a : Cell)]

/-- DESIGN CHOICE (entry 7): the machine has no bits, so a table word is read as two lanes of 64
bits, the opcode cell in the low lane and the operand cell above it. -/
def tableCells (w : Nat) : List Cell :=
  [((w % 2 ^ 64 : Nat) : Cell), ((w / 2 ^ 64 : Nat) : Cell)]

/-- The instruction the decoder reads from a table word under the reference `OPCODE_MAP`. The bits
above `nbits` are 0 by the caller's promise, so `nbits` is not needed. -/
def decodeTableWord (_nbits w : Nat) : Option Instr :=
  match decode OpcodeMap.reference (tableCells w) with
  | .ok (i, _) => some i
  | .error _   => none

end Sys2Proof
end

