-- ==== Sys2Proof/Machine/State.lean ====
section
/-! DEFINITION. The state of the machine, the fault kinds and the state after reset (10_state.md, 60_exceptions.md R111). -/

namespace Sys2Proof.Machine

/-- The fault kinds of a step (R111). Every one is fatal: the meaning that raises it answers a next
state with the fault recorded, and every later step answers this fault until the host resets. -/
inductive Fault where
  /-- Raised by `fetch` when the opcode cell selects no instruction (R76). Safe: the spec's fault. -/
  | invalidInstruction (address : Address) (opcode : Cell)
  /-- Raised by every Bus access no range owns, and for a negative operand, whose value it then
  carries (R46, R47, R78). Safe: the spec's fault. -/
  | unmappedAddress (address : Int)
  /-- Raised by a device that has no cell at the local offset (R43). Safe: the spec's fault. -/
  | outOfRange (offset : Nat)
  /-- Raised by `Div` when the divisor cell holds 0 (R97). Safe: the spec's fault. -/
  | divideByZero (address : Address)
  /-- Raised by `Sqrt` when `Acc` is negative (R98). Safe: the spec's fault. -/
  | sqrtOfNegative (value : Cell)
  /-- Raised by `checkCell` in `Add`, `Neg`, `Mul`, `Div` and `Sqrt` under a bounded `CELL_BOUNDS`
  (R91). Safe: the spec's fault. -/
  | cellOverflow (value : Cell)
deriving DecidableEq, Repr

/-- Reasons for which the model gives an instruction no meaning. -/
inductive Refusal where
  /-- Raised by a stub arm of `exec` only; there is none. Safe. -/
  | notModelled (mnemonic : String)
deriving DecidableEq, Repr

/-- What a step returns (R15). -/
inductive StepOutcome where
  | continued
  | halted
  | faulted (kind : Fault)
deriving DecidableEq, Repr

/-- The cells of one device: pairs of a local offset and its value, offsets rising, no value 0. An
unlisted offset reads as 0, the reset contents (R30, R36). -/
abbrev Memory := List (Nat × Cell)

/-- Offsets rise strictly and no entry holds 0: the one canonical form. -/
def Memory.wf (m : Memory) : Bool :=
  decide (m.Pairwise fun p q => p.1 < q.1) && m.all fun p => decide (p.2 ≠ 0)

/-- A RAM device: a fixed capacity and its cells (R30, R42). -/
structure Ram where
  capacity : Nat
  cells    : Memory
deriving DecidableEq, Repr

/-- A RAM's contents are canonical and lie below its capacity (R30). -/
def Ram.wf (r : Ram) : Bool :=
  r.cells.wf && r.cells.all fun p => decide (p.1 < r.capacity)

/-- `new(capacity)`: every cell 0 (R42). -/
def Ram.new (capacity : Nat) : Ram := { capacity := capacity, cells := [] }

/-- The whole machine: the two CPU registers (R24), the devices (R30), the VM's fault field (R32),
the configuration it was constructed with (R33, R34), and what the last step returned (R15; the
model's own field, entry 2). -/
structure State where
  config  : Config
  ia      : Address
  acc     : Cell
  devices : List Ram
  fault   : Option Fault
  outcome : StepOutcome
deriving DecidableEq, Repr

/-- The machine right after construction or reset, in the reference configuration (R36, R128). -/
def State.reset : State where
  config  := Config.reference
  ia      := 0
  acc     := falseCell
  devices := [Ram.new referenceCapacity]
  fault   := none
  outcome := .continued

end Sys2Proof.Machine
end

