-- ==== Sys2Proof/Machine/Ops.lean ====
section
/-! DEFINITION. The named operations over memory and registers: RAM, the Bus, `checkCell`, the advance of `IA`, taking a fault and the reset that alone clears one. -/

namespace Sys2Proof.Machine

/-- The cell at an offset; an unlisted one is 0 (R30). -/
def Memory.read : Memory → Nat → Cell
  | [], _ => 0
  | (k, v) :: rest, off => if k = off then v else Memory.read rest off

/-- Writes one cell and keeps the canonical form: a 0 is not listed. -/
def Memory.write : Memory → Nat → Cell → Memory
  | [], off, v => if v = 0 then [] else [(off, v)]
  | (k, w) :: rest, off, v =>
    if k < off then (k, w) :: Memory.write rest off v
    else if k = off then (if v = 0 then rest else (off, v) :: rest)
    else (if v = 0 then (k, w) :: rest else (off, v) :: (k, w) :: rest)

/-- RAM `get(off)` (R43). -/
def Ram.get (r : Ram) (off : Nat) : Except Fault Cell :=
  if off < r.capacity then .ok (r.cells.read off) else .error (.outOfRange off)

/-- RAM `set(off, v)` (R43). -/
def Ram.set (r : Ram) (off : Nat) (v : Cell) : Except Fault Ram :=
  if off < r.capacity then .ok { r with cells := r.cells.write off v } else .error (.outOfRange off)

/-- RAM `clear()` (R44). -/
def Ram.clear (r : Ram) : Ram := { r with cells := [] }

/-- RAM `len()` (R44). -/
def Ram.len (r : Ram) : Nat := r.capacity

/-- The Bus's routing: the owning device and the local offset, or `UnmappedAddress` (R46). -/
def State.route (s : State) (a : Address) : Except Fault (Nat × Nat) :=
  match busFind s.config.busTable a with
  | none   => .error (.unmappedAddress a)
  | some e => .ok (e.device, a - e.range.start)

/-- `get` of a device. A table entry that names no device has no cell at any offset (entry 5). -/
def State.deviceGet (s : State) (d off : Nat) : Except Fault Cell :=
  match s.devices[d]? with
  | none   => .error (.outOfRange off)
  | some r => r.get off

/-- Puts a device's new contents in its place. -/
def State.setDevice (s : State) (d : Nat) (r : Ram) : State :=
  { s with devices := s.devices.set d r }

/-- `set` of a device. -/
def State.deviceSet (s : State) (d off : Nat) (v : Cell) : Except Fault State :=
  match s.devices[d]? with
  | none   => .error (.outOfRange off)
  | some r =>
    match r.set off v with
    | .error k => .error k
    | .ok r'   => .ok (s.setDevice d r')

/-- `MemRead(a, 1)` (R46). -/
def State.read (s : State) (a : Address) : Except Fault Cell :=
  match s.route a with
  | .error k      => .error k
  | .ok (d, off)  => s.deviceGet d off

/-- `MemWrite(a, 1, v)` (R47). -/
def State.write (s : State) (a : Address) (v : Cell) : Except Fault State :=
  match s.route a with
  | .error k      => .error k
  | .ok (d, off)  => s.deviceSet d off v

/-- `checkCell(v)` (R14, R91). -/
def checkCell (cfg : Config) (v : Cell) : Except Fault Cell :=
  if cfg.admits v then .ok v else .error (.cellOverflow v)

/-- Stage 4: `IA` moves past the instruction's cells, exactly and with no wrap (R79). -/
def State.advance (s : State) (n : Nat) : State := { s with ia := s.ia + n }

/-- Writes `Acc` (R11). -/
def State.setAcc (s : State) (v : Cell) : State := { s with acc := v }

/-- Writes `IA` (R11). -/
def State.setIa (s : State) (a : Address) : State := { s with ia := a }

/-- TAKING A FAULT: the step returns `Faulted(k)` and the VM records `k`. There is no handler and no
vector; nothing else is saved and nothing else changes (R116, R117). -/
def State.takeFault (s : State) (k : Fault) : State :=
  { s with fault := some k, outcome := .faulted k }

/-- The step returns `Continue` (R80). -/
def State.returnContinue (s : State) : State := { s with outcome := .continued }

/-- The step returns `Halted`; it is recorded nowhere but in the outcome (R88, R112). -/
def State.returnHalted (s : State) : State := { s with outcome := .halted }

/-- `reset()`, the only operation that clears a recorded fault: every cell, `IA` and `Acc` to 0,
`fault` to none, the configuration and the capacities as they are (R118, R129). -/
def State.hostReset (s : State) : State :=
  { s with
    ia := 0, acc := falseCell, devices := s.devices.map Ram.clear, fault := none
    outcome := .continued }

/-- The end of a handler: `Continue` with the state it made, or the fault it raised, taken in `s`,
the state as the advance left it (R80, R83). -/
def State.finish (s : State) : Except Fault State → Host.Outcome State Fault Refusal
  | .ok t    => .next t.returnContinue
  | .error k => .next (s.takeFault k)

end Sys2Proof.Machine
end

