-- ==== Sys2Proof/Machine/Operands.lean ====
section
/-! DEFINITION. The operand forms of the instruction set: no operand (format Z), the cell at the operand address, and the operand address as a jump target (30_encoding.md R63, R67). -/

namespace Sys2Proof.Machine

/-- Format `Z` on the accumulator: advance by 1, then `Acc` becomes what `f` computes from the
advanced state, or its fault is taken (R80, R83). -/
def State.accUnary (s : State) (f : State → Except Fault Cell) : Host.Outcome State Fault Refusal :=
  let s1 := s.advance 1
  s1.finish
    (match f s1 with
     | .error k => .error k
     | .ok v    => .ok (s1.setAcc v))

/-- Format `A` with a data cell: advance by 2, read the cell at `a` (always, D8), then `Acc` becomes
what `f` computes from the advanced state and that cell, or the fault is taken (R67, R83). -/
def State.accFromCell (s : State) (a : Address) (f : State → Cell → Except Fault Cell) :
    Host.Outcome State Fault Refusal :=
  let s1 := s.advance 2
  s1.finish
    (match s1.read a with
     | .error k => .error k
     | .ok d =>
       match f s1 d with
       | .error k => .error k
       | .ok v    => .ok (s1.setAcc v))

/-- Format `A` with a data cell to write: advance by 2, then `MemWrite(a, 1, Acc)` (R67, R89). -/
def State.accToCell (s : State) (a : Address) : Host.Outcome State Fault Refusal :=
  let s1 := s.advance 2
  s1.finish (s1.write a s1.acc)

/-- Format `A` with a target: advance by 2, then `IA` becomes `a` when the condition holds. The
target is not checked and no cell at `a` is read (R106, R107). -/
def State.jumpWhen (s : State) (c : Bool) (a : Address) : Host.Outcome State Fault Refusal :=
  let s1 := s.advance 2
  s1.finish (.ok (if c then s1.setIa a else s1))

end Sys2Proof.Machine
end

