-- ==== Sys2Proof/Machine/Arithmetic.lean ====
section
/-! DEFINITION. `Add`, `Neg`, `Mul`, `Div` and `Sqrt`: exact signed integers, then `checkCell` (42_arithmetic.md R91). -/

namespace Sys2Proof.Machine

/-- `Add a`: `Acc = Acc + memory[a]` (R94). -/
def execAdd (a : Address) (s : State) : Host.Outcome State Fault Refusal :=
  s.accFromCell a fun t d => checkCell t.config (t.acc + d)

/-- `Neg`: `Acc = -Acc` (R95). -/
def execNeg (s : State) : Host.Outcome State Fault Refusal :=
  s.accUnary fun t => checkCell t.config (0 - t.acc)

/-- `Mul a`: `Acc = Acc * memory[a]` (R96). -/
def execMul (a : Address) (s : State) : Host.Outcome State Fault Refusal :=
  s.accFromCell a fun t d => checkCell t.config (t.acc * d)

/-- `Div a`: the exact quotient rounded away from zero; a zero divisor is a fault (R97). -/
def execDiv (a : Address) (s : State) : Host.Outcome State Fault Refusal :=
  s.accFromCell a fun t d =>
    if d = 0 then .error (.divideByZero a) else checkCell t.config (roundAway (Rat.divInt t.acc d))

/-- `Sqrt`: the least `r ≥ 0` with `r * r ≥ Acc`; a negative `Acc` is a fault (R98). -/
def execSqrt (s : State) : Host.Outcome State Fault Refusal :=
  s.accUnary fun t =>
    if t.acc < 0 then .error (.sqrtOfNegative t.acc) else checkCell t.config (sqrtUp t.acc)

end Sys2Proof.Machine
end

