-- ==== Sys2Proof/Machine/Flags.lean ====
section
/-! DEFINITION. Conditions. The machine has no status flags (10_state.md R28): the only condition an instruction tests is the truthiness of a cell, and comparisons deliver a canonical cell. -/

namespace Sys2Proof.Machine

/-- `truthy(v) = (v ≠ 0)` (R20). -/
def truthy (v : Cell) : Bool := decide (v ≠ 0)

/-- `cellOf(c)`: the true cell or the false cell (R14). -/
def cellOf (c : Bool) : Cell := if c then trueCell else falseCell

end Sys2Proof.Machine
end

