-- ==== Sys2Proof/Machine/CompareLogic.lean ====
section
/-! DEFINITION. `Eq`, `Gt`, `Not`, `Or` and `And`: each writes exactly the true or the false cell (43_compare_logic.md R99). -/

namespace Sys2Proof.Machine

/-- `Eq a`: equality by value (R101). -/
def execEq (a : Address) (s : State) : Host.Outcome State Fault Refusal :=
  s.accFromCell a fun t d => .ok (cellOf (decide (t.acc = d)))

/-- `Gt a`: strict signed order (R102). -/
def execGt (a : Address) (s : State) : Host.Outcome State Fault Refusal :=
  s.accFromCell a fun t d => .ok (cellOf (decide (d < t.acc)))

/-- `Not`: the true cell exactly when `Acc` is the false cell (R103). -/
def execNot (s : State) : Host.Outcome State Fault Refusal :=
  s.accUnary fun t => .ok (cellOf (decide (t.acc = falseCell)))

/-- `Or a`: or of the two truth values; the cell is read whatever `Acc` holds (R104). -/
def execOr (a : Address) (s : State) : Host.Outcome State Fault Refusal :=
  s.accFromCell a fun t d => .ok (cellOf (truthy t.acc || truthy d))

/-- `And a`: and of the two truth values; the cell is read whatever `Acc` holds (R105). -/
def execAnd (a : Address) (s : State) : Host.Outcome State Fault Refusal :=
  s.accFromCell a fun t d => .ok (cellOf (truthy t.acc && truthy d))

end Sys2Proof.Machine
end

