-- ==== Sys2Proof/Machine/HaltLoadStore.lean ====
section
/-! DEFINITION. `Halt`, `St` and `Ld` (41_halt_load_store.md). -/

namespace Sys2Proof.Machine

/-- `Halt`: the step returns `Halted`, with `IA = p + 1`; no fault, no halted CPU state (R84, R88). -/
def execHalt (s : State) : Host.Outcome State Fault Refusal :=
  .next (s.advance 1).returnHalted

/-- `St a`: `memory[a] = Acc` (R89). -/
def execSt (a : Address) (s : State) : Host.Outcome State Fault Refusal :=
  s.accToCell a

/-- `Ld a`: `Acc = memory[a]` (R90). -/
def execLd (a : Address) (s : State) : Host.Outcome State Fault Refusal :=
  s.accFromCell a fun _ d => .ok d

end Sys2Proof.Machine
end

