-- ==== Sys2Proof/Machine/Jumps.lean ====
section
/-! DEFINITION. `Jmp` and `Jif` (44_jumps.md). -/

namespace Sys2Proof.Machine

/-- `Jmp a`: `IA = a` (R109). -/
def execJmp (a : Address) (s : State) : Host.Outcome State Fault Refusal :=
  s.jumpWhen true a

/-- `Jif a`: `IA = a` when `Acc` is truthy, else the next instruction (R110). -/
def execJif (a : Address) (s : State) : Host.Outcome State Fault Refusal :=
  s.jumpWhen (truthy s.acc) a

end Sys2Proof.Machine
end

