-- ==== Sys2Proof/Machine/Dispatch.lean ====
section
/-! DEFINITION. Stages 4 and 5 of the step: one arm per instruction (40_execution_cycle.md R79, R80). -/

namespace Sys2Proof.Machine

/-- The advance and the handler of an instruction whose opcode cell `IA` still names (R74). -/
def exec (i : Instr) (s : State) : Host.Outcome State Fault Refusal :=
  match i with
  | .halt => Sys2Proof.Machine.execHalt s
  | .st a => Sys2Proof.Machine.execSt a s
  | .ld a => Sys2Proof.Machine.execLd a s
  | .add a => Sys2Proof.Machine.execAdd a s
  | .neg => Sys2Proof.Machine.execNeg s
  | .mul a => Sys2Proof.Machine.execMul a s
  | .div a => Sys2Proof.Machine.execDiv a s
  | .sqrt => Sys2Proof.Machine.execSqrt s
  | .eq a => Sys2Proof.Machine.execEq a s
  | .gt a => Sys2Proof.Machine.execGt a s
  | .not => Sys2Proof.Machine.execNot s
  | .or a => Sys2Proof.Machine.execOr a s
  | .and a => Sys2Proof.Machine.execAnd a s
  | .jmp a => Sys2Proof.Machine.execJmp a s
  | .jif a => Sys2Proof.Machine.execJif a s

end Sys2Proof.Machine
end

