-- ==== Sys2Proof/Machine/Fetch.lean ====
section
/-! DEFINITION. Stages 1 to 3 of the step: fetch, decode, operand fetch (40_execution_cycle.md R75 to R78), and placing an instruction's cells in memory. -/

namespace Sys2Proof.Machine

/-- Stages 1 to 3: the instruction at `IA`, or the first fault on the way, in the order of R114. A
format `Z` instruction reads no operand cell (R77). -/
def State.fetch (s : State) : Except Fault Instr :=
  match s.read s.ia with
  | .error k => .error k
  | .ok v =>
    match decodeOpcode s.config.opcodes v with
    | none => .error (.invalidInstruction s.ia v)
    | some (.z i) => .ok i
    | some (.a build) =>
      match s.read (s.ia + 1) with
      | .error k => .error k
      | .ok c =>
        match decodeOperand c with
        | none   => .error (.unmappedAddress c)
        | some a => .ok (build a)

/-- Writes cells from address `a` upward; a cell at an address that is not there is left out. -/
def State.placeCells (s : State) (a : Address) : List Cell → State
  | [] => s
  | c :: rest =>
    match s.write a c with
    | .ok t    => State.placeCells t (a + 1) rest
    | .error _ => State.placeCells s (a + 1) rest

/-- The cells to place for a table word: the instruction's own cells under the machine's
`OPCODE_MAP`, or the bare opcode cell of a word that is no instruction. -/
def wordCells (map : OpcodeMap) (nbits w : Nat) : List Cell :=
  match decodeTableWord nbits w with
  | some i => encode map i
  | none   => (tableCells w).take 1

end Sys2Proof.Machine
end

