-- ==== Sys2Proof/Machine/Step.lean ====
section
/-! DEFINITION. One step of the machine: the driver's fault check and one call of `next_instruction()` (40_execution_cycle.md R74, 70_reset_and_hazards.md R132, R133). -/

namespace Sys2Proof.Machine

/-- One iteration of the run loop. A recorded fault stops the machine (R132); a fault of stages 1 to
3 is taken with nothing else changed (R82); otherwise the instruction executes. -/
def step (s : State) : Host.Outcome State Fault Refusal :=
  match s.fault with
  | some k => .fault k
  | none =>
    match s.fetch with
    | .error k => .next (s.takeFault k)
    | .ok i    => exec i s

/-- `s` with the instruction of a table word stored at `IA`, and no fault recorded, so that the next
step runs it. It stands for the host's `load_program` or writes (R130, R131; entry 7). -/
def State.withFetchWord (s : State) (nbits w : Nat) : State :=
  { s.placeCells s.ia (wordCells s.config.opcodes nbits w) with fault := none }

end Sys2Proof.Machine
end

