-- ==== Sys2Proof/Machine/Vm.lean ====
section
/-! DEFINITION. The host's operations on the machine between runs: construct, attach, `load_program`, read, write and inspect (70_reset_and_hazards.md R127 to R131). `reset` is `State.hostReset` in Ops.lean; `run` is in Run.lean. -/

namespace Sys2Proof.Machine

/-- A value the host hands over: a raw integer or an opcode symbol, nothing else (R21, D27). -/
inductive HostValue where
  | raw (k : Int)
  | symbol (m : Mnemonic)
deriving DecidableEq, Repr

/-- Why a configuration is refused. -/
inductive ConfigError where
  /-- The range shares an address with an attached one (R45). -/
  | overlap
  /-- The range's length is below 0 (R45). -/
  | negativeLength
  /-- The frequency is not a finite number above 0 (R137). -/
  | badFrequency
  /-- `OPCODE_MAP` is not injective, which R65 requires (entry 6). -/
  | opcodesNotInjective
  /-- `CELL_BOUNDS` leaves out 0 or 1, which R99 requires (entry 6). -/
  | boundsWithoutTruthCells
  /-- The table names a device that was not made (entry 6). -/
  | noSuchDevice
deriving DecidableEq, Repr

/-- What a host operation reports instead of its effect; none is recorded in `fault` (R113). -/
inductive HostError where
  | configError (e : ConfigError)
  | programTooLarge (length : Nat)
  | accessFault (k : Fault)
deriving DecidableEq, Repr

/-- The cell a host value becomes (R21). -/
def HostValue.cell (map : OpcodeMap) : HostValue → Cell
  | .raw k    => k
  | .symbol m => map.value m

/-- `RAM_CAPACITY`: the capacity of the machine's RAM, device 0 (R8). -/
def State.ramCapacity (s : State) : Nat :=
  match s.devices with
  | []     => 0
  | r :: _ => r.len

/-- `attach(range, device)`: appends to the table, or refuses and changes nothing (R45). -/
def State.attach (s : State) (e : Attachment) : Except HostError State :=
  if e.range.length < 0 then .error (.configError .negativeLength)
  else if s.config.busTable.any fun f => f.range.overlaps e.range then
    .error (.configError .overlap)
  else if s.devices.length ≤ e.device then .error (.configError .noSuchDevice)
  else .ok { s with config := { s.config with busTable := s.config.busTable ++ [e] } }

/-- Attaches every entry in order; the first refusal is the answer (R128). -/
def State.attachAll (s : State) : List Attachment → Except HostError State
  | [] => .ok s
  | e :: rest =>
    match s.attach e with
    | .error x => .error x
    | .ok t    => State.attachAll t rest

/-- The machine before anything is attached: every device's cells 0, both registers 0, no fault
(R128). -/
def State.unattached (capacities : List Nat) (opcodes : OpcodeMap) (bounds : Option CellBounds) :
    State where
  config  := { busTable := [], opcodes := opcodes, cellBounds := bounds }
  ia      := 0
  acc     := falseCell
  devices := capacities.map Ram.new
  fault   := none
  outcome := .continued

/-- Construction. The first capacity is `RAM_CAPACITY`; further ones make further RAM devices, as in
the spec's two-device example (R127, R128; 95_test_vectors.md 2.7; entry 10).
DESIGN CHOICE (entry 10): no capacity at all makes a machine with no RAM, whose `RAM_CAPACITY` is 0,
where R42 makes one RAM.
DESIGN CHOICE (entry 6): of several defects the first of this order is reported: the map, the bounds,
then the table's entries one after the other, each with its length, its overlap and its device. -/
def construct (capacities : List Nat) (table : List Attachment) (opcodes : OpcodeMap)
    (bounds : Option CellBounds) : Except HostError State :=
  let s := State.unattached capacities opcodes bounds
  if opcodes.injective = false then .error (.configError .opcodesNotInjective)
  else if s.config.boundsValid = false then .error (.configError .boundsWithoutTruthCells)
  else s.attachAll table

/-- `MemWrite` of consecutive cells from address `a` upward, stopping at the first fault (R130). -/
def State.writeCells (s : State) (a : Address) : List Cell → Except Fault State
  | [] => .ok s
  | c :: rest =>
    match s.write a c with
    | .error k => .error k
    | .ok t    => State.writeCells t (a + 1) rest

/-- `load_program(values)`: the length first, then every converted cell's bounds, then the writes
from address 0. A failed load leaves the machine as it was (R130, D13; entry 9). -/
def State.loadProgram (s : State) (values : List HostValue) : Except HostError State :=
  let cells := values.map (HostValue.cell s.config.opcodes)
  if s.ramCapacity < values.length then .error (.programTooLarge values.length)
  else
    match cells.find? fun c => s.config.admits c = false with
    | some c => .error (.accessFault (.cellOverflow c))
    | none =>
      match s.writeCells 0 cells with
      | .error k => .error (.accessFault k)
      | .ok t    => .ok t

/-- Host read of one cell (R131). -/
def State.hostRead (s : State) (a : Address) : Except HostError Cell :=
  match s.read a with
  | .error k => .error (.accessFault k)
  | .ok v    => .ok v

/-- Host write of one cell: convert, check, then write through the Bus (R131). -/
def State.hostWrite (s : State) (a : Address) (v : HostValue) : Except HostError State :=
  match checkCell s.config (v.cell s.config.opcodes) with
  | .error k => .error (.accessFault k)
  | .ok c =>
    match s.write a c with
    | .error k => .error (.accessFault k)
    | .ok t    => .ok t

/-- What the debug view shows: both registers and each device's cells in order (R37). -/
structure DebugView where
  ia  : Address
  acc : Cell
  ram : List (List Cell)
deriving DecidableEq, Repr

/-- The cells of a RAM, offset 0 first. -/
def Ram.contents (r : Ram) : List Cell :=
  (List.range r.capacity).map r.cells.read

/-- The debug view; it reads and changes nothing (R37). -/
def State.inspect (s : State) : DebugView where
  ia  := s.ia
  acc := s.acc
  ram := s.devices.map Ram.contents

end Sys2Proof.Machine
end

