-- ==== Sys2Proof/Machine/Assembler.lean ====
section
/-! DEFINITION. The assembler's list notation (30_encoding.md R72) and the program image it stands for (R69). -/

namespace Sys2Proof.Machine

/-- One item of a program: an instruction or a raw integer (R72). -/
inductive ProgramItem where
  | instr (i : Instr)
  | data (k : Int)
deriving DecidableEq, Repr

/-- The image cells of an item: an opcode symbol and its operand, or the integer (R69, R72). -/
def ProgramItem.cells : ProgramItem → List HostValue
  | .data k => [.raw k]
  | .instr i =>
    .symbol i.mnemonic ::
      match i.operand? with
      | none   => []
      | some a => [.raw a]

/-- The program image: the items' cells in order (R69). -/
def assemble (items : List ProgramItem) : List HostValue :=
  items.flatMap ProgramItem.cells

/-- The mnemonic as the source writes it; case matters (R72). -/
def Mnemonic.name : Mnemonic → List Char
  | .halt => ['H', 'a', 'l', 't']
  | .st   => ['S', 't']
  | .ld   => ['L', 'd']
  | .add  => ['A', 'd', 'd']
  | .neg  => ['N', 'e', 'g']
  | .mul  => ['M', 'u', 'l']
  | .div  => ['D', 'i', 'v']
  | .sqrt => ['S', 'q', 'r', 't']
  | .eq   => ['E', 'q']
  | .gt   => ['G', 't']
  | .not  => ['N', 'o', 't']
  | .or   => ['O', 'r']
  | .and  => ['A', 'n', 'd']
  | .jmp  => ['J', 'm', 'p']
  | .jif  => ['J', 'i', 'f']

/-- The pieces of a text between one separator character. -/
def splitAt (sep : Char) : List Char → List (List Char)
  | [] => [[]]
  | c :: rest =>
    if c = sep then [] :: splitAt sep rest
    else
      match splitAt sep rest with
      | []      => [[c]]
      | w :: ws => (c :: w) :: ws

/-- The value of a decimal digit. -/
def digit? (c : Char) : Option Nat :=
  if 48 ≤ c.toNat ∧ c.toNat ≤ 57 then some (c.toNat - 48) else none

/-- A decimal numeral read on from a value. -/
def digitsFrom (acc : Nat) : List Char → Option Nat
  | [] => some acc
  | c :: rest =>
    match digit? c with
    | none   => none
    | some d => digitsFrom (10 * acc + d) rest

/-- A decimal integer at least 0 (R72). -/
def natural? : List Char → Option Nat
  | [] => none
  | cs => digitsFrom 0 cs

/-- A raw integer, with a minus sign when negative. -/
def integer? : List Char → Option Int
  | '-' :: cs => (natural? cs).map fun n => -(n : Int)
  | cs        => (natural? cs).map fun n => (n : Int)

/-- The mnemonic of a word (R72). -/
def mnemonicNamed? (word : List Char) : Option Mnemonic :=
  Mnemonic.all.find? fun m => decide (Mnemonic.name m = word)

/-- One item from its words: `Mnemonic`, `Mnemonic a`, or a raw integer (R72). -/
def parseItem : List (List Char) → Option ProgramItem
  | [word] =>
    match mnemonicNamed? word with
    | none => (integer? word).map .data
    | some m =>
      match m.form with
      | .z i => some (.instr i)
      | .a _ => none
  | [word, operand] =>
    match mnemonicNamed? word with
    | none => none
    | some m =>
      match m.form with
      | .z _     => none
      | .a build => (natural? operand).map fun a => .instr (build a)
  | _ => none

/-- The items of a comma-separated text; spaces only separate words. DESIGN CHOICE (entry 12): a text
with no word and no comma is the empty list of items, so `[]` is a program, of the empty image. -/
def parseItems (text : List Char) : Option (List ProgramItem) :=
  let pieces := (splitAt ',' text).map fun t => (splitAt ' ' t).filter fun w => decide (w ≠ [])
  if pieces = [[]] then some [] else pieces.mapM parseItem

/-- A program in the source's notation, a bracketed comma-separated list (R72). -/
def parseProgram : List Char → Option (List ProgramItem)
  | '[' :: rest =>
    match rest.reverse with
    | ']' :: body => parseItems body.reverse
    | _           => none
  | _ => none

end Sys2Proof.Machine
end

