-- ==== Sys2Proof/Machine/Run.lean ====
section
/-! DEFINITION. The run loop, unthrottled and throttled (70_reset_and_hazards.md R132 to R139). Frequencies and times are exact numbers of an ordered field `K`: the reals, which R137 names, are one, and the rationals are one a test can evaluate. A run need not end, so the loop takes a list of ticks, one for each step it may make; every timing value the spec leaves open is in the ticks, so a statement for all ticks holds whatever the host's clock does (entry 8). -/

namespace Sys2Proof.Machine

variable {K : Type} [Field K] [LinearOrder K]

/-- The open timing values of one iteration, in nanoseconds: how long the step took, and how much
longer than asked the sleep lasted, or how long the diagnostic took (R137). Neither is negative. -/
structure Tick (K : Type) [Field K] [LinearOrder K] where
  elapsed : K
  extra   : K
  elapsed_nonneg : 0 ≤ elapsed
  extra_nonneg   : 0 ≤ extra
deriving DecidableEq

/-- The deadline-miss diagnostic: the step's time and the achieved rate in Hz (R136). -/
structure Diagnostic (K : Type) where
  elapsed : K
  rate    : K
deriving DecidableEq

/-- The argument of `run`: any number, finite or not (R137). -/
inductive Frequency (K : Type) where
  | finite (hz : K)
  | infinite (negative : Bool)
  | notANumber
deriving DecidableEq

/-- The period `10^9 / F` in nanoseconds, for a valid frequency only (R134, R137). -/
def Frequency.period? : Frequency K → Option K
  | .finite hz  => if 0 < hz then some (10 ^ 9 / hz) else none
  | .infinite _ => none
  | .notANumber => none

/-- How a run stands: ended by `Halted`, `Faulted` or `ConfigError(BadFrequency)`, or still running
when the ticks are used up. -/
inductive RunResult where
  | halted
  | faulted (k : Fault)
  | badFrequency
  | running
  | refused (r : Refusal)
deriving DecidableEq, Repr

/-- A run: how it stands, the machine, the nanoseconds since its first step started, how many steps
returned `Continue`, and the diagnostics in order. -/
structure Run (K : Type) where
  result      : RunResult
  state       : State
  time        : K
  continued   : Nat
  diagnostics : List (Diagnostic K)
deriving DecidableEq

/-- A run that stands before its first step. -/
def Run.unstarted (r : RunResult) (s : State) : Run K :=
  { result := r, state := s, time := 0, continued := 0, diagnostics := [] }

/-- A run that ends with the step just made: no sleep and no diagnostic follow it (R135). -/
def Run.ended (r : RunResult) (s : State) (tick : Tick K) : Run K :=
  { result := r, state := s, time := tick.elapsed, continued := 0, diagnostics := [] }

/-- The time an iteration takes when its step returned `Continue`. With a period it sleeps at least
the rest of the period, unless the step overran it (R134). -/
def Tick.duration (tick : Tick K) : Option K → K
  | none   => tick.elapsed
  | some p =>
    if tick.elapsed ≤ p then tick.elapsed + ((p - tick.elapsed) + tick.extra)
    else tick.elapsed + tick.extra

/-- The diagnostic of an iteration whose step overran the period (R134, R136). -/
def Tick.diagnostics (tick : Tick K) : Option K → List (Diagnostic K)
  | none   => []
  | some p =>
    if tick.elapsed ≤ p then []
    else [{ elapsed := tick.elapsed, rate := 10 ^ 9 / tick.elapsed }]

/-- Adds one iteration in front of the rest of the run. -/
def Run.after (rest : Run K) (tick : Tick K) (period : Option K) : Run K :=
  { rest with
    time := tick.duration period + rest.time
    continued := rest.continued + 1
    diagnostics := tick.diagnostics period ++ rest.diagnostics }

/-- The loop: step until `Halted` or a fault (R133, R134). The period feeds only the sleep and the
diagnostic. -/
def runLoop (period : Option K) : List (Tick K) → State → Run K
  | [], s => Run.unstarted .running s
  | tick :: ticks, s =>
    match step s with
    | .fault k   => Run.ended (.faulted k) s tick
    | .refused r => Run.ended (.refused r) s tick
    | .next t =>
      match t.outcome with
      | .continued => (runLoop period ticks t).after tick period
      | .halted    => Run.ended .halted t tick
      | .faulted k => Run.ended (.faulted k) t tick

/-- `run(frequency)`: the recorded fault first, then the frequency, then the loop (R132, R137). -/
def run (frequency : Option (Frequency K)) (ticks : List (Tick K)) (s : State) : Run K :=
  match s.fault with
  | some k => Run.unstarted (.faulted k) s
  | none =>
    match frequency with
    | none => runLoop none ticks s
    | some f =>
      match f.period? with
      | none   => Run.unstarted .badFrequency s
      | some p => runLoop (some p) ticks s

end Sys2Proof.Machine
end

