-- ==== Sys2Proof/Safety.lean ====
section
/-! DEFINITION. The invariant every step keeps, and what a safe run is, in the terms statements use. -/

namespace Sys2Proof.Machine

/-- Every device's cells are in canonical form and below its capacity (R30). -/
def State.memoryWf (s : State) : Bool := s.devices.all Ram.wf

/-- Every table entry names a device that exists (R34). -/
def State.devicesExist (s : State) : Bool :=
  s.config.busTable.all fun e => decide (e.device < s.devices.length)

/-- `Acc` and every listed cell hold values `CELL_BOUNDS` admits (R17, R90). -/
def State.cellsAdmitted (s : State) : Bool :=
  s.config.admits s.acc && s.devices.all fun r => r.cells.all fun p => s.config.admits p.2

/-- The fault an outcome carries. -/
def StepOutcome.fault? : StepOutcome → Option Fault
  | .faulted k => some k
  | .continued => none
  | .halted    => none

/-- The VM's record is exactly the fault the last step returned; `Halted` is never recorded (R32). -/
def State.faultAgrees (s : State) : Bool := decide (s.fault = s.outcome.fault?)

/-- The machine's invariant. -/
def State.wf (s : State) : Bool :=
  s.config.wellFormed && s.devicesExist && s.memoryWf && s.cellsAdmitted && s.faultAgrees

/-- The reference address map: the RAM of 256 cells over addresses 0 to 255, under any `OPCODE_MAP`
and any `CELL_BOUNDS` (R53). -/
def State.hasReferenceMap (s : State) : Bool :=
  decide (s.config.busTable = Config.reference.busTable) &&
    decide (s.devices.map Ram.capacity = [referenceCapacity])

/-- The reference machine: its map and the reference parameters (R8). -/
def State.isReference (s : State) : Bool :=
  decide (s.config = Config.reference) && decide (s.devices.map Ram.capacity = [referenceCapacity])

/-- No step of the first `n` faults: the run halts or is still going (R135). -/
def State.safeFor : Nat → State → Bool
  | 0, _ => true
  | n + 1, s =>
    match step s with
    | .next t =>
      match t.outcome with
      | .continued => State.safeFor n t
      | .halted    => true
      | .faulted _ => false
    | .fault _   => false
    | .refused _ => false

end Sys2Proof.Machine
end

