-- ==== Sys2Proof/Certificates/Slice0/Obligations.lean ====
section
/-! DEFINITION. The statements for the provers. `s`, `t` are states, `p` of the spec is `s.ia` before the step. Every statement holds for every configuration unless it names the reference one. A step's outcome `Continue`, `Halted` or `Faulted(k)` is read in the field `outcome` of the next state, and the driver's record of a fault is written by the step itself (entries 1 and 2: the model's way to show what R15 and R133 say). -/

open Sys2Proof Sys2Proof.Machine

/-! ### Encoding and decoding -/

/-- R62, R64, R66, R68: under every injective `OPCODE_MAP` every instruction, with every operand,
decodes back from its cells, and the cells after it are left. -/
def Obligations.DecodeOfEncode : Prop :=
  ∀ (map : OpcodeMap), map.injective = true → ∀ (i : Instr) (rest : List Cell),
    decode map (encode map i ++ rest) = .ok (i, rest)

/-- R62, R64, R66: what decodes was its own encoding, so no two lists of cells mean one
instruction. -/
def Obligations.EncodeOfDecode : Prop :=
  ∀ (map : OpcodeMap) (cells rest : List Cell) (i : Instr),
    decode map cells = .ok (i, rest) → encode map i ++ rest = cells

/-- R64, 95_test_vectors.md: cells of the spec's own examples, one of each family and format. -/
def Obligations.SpecCellsDecode : Prop :=
  decode OpcodeMap.reference [0] = .ok (.halt, []) ∧
  decode OpcodeMap.reference [1, 10, 2, 10, 0] = .ok (.st 10, [2, 10, 0]) ∧
  decode OpcodeMap.reference [6, 23] = .ok (.div 23, []) ∧
  decode OpcodeMap.reference [7, 1] = .ok (.sqrt, [1]) ∧
  decode OpcodeMap.reference [8, 21] = .ok (.eq 21, []) ∧
  decode OpcodeMap.reference [13, 4, 255, 255, 0] = .ok (.jmp 4, [255, 255, 0]) ∧
  decode OpcodeMap.reference [255] = .error (.unknownOpcode 255) ∧
  decode OpcodeMap.reference [2, -1] = .error (.negativeOperand (-1))

/-- R70, R76: an opcode cell that selects no mnemonic is a fault that changes nothing but the
record; under the default map these are exactly the negative integers and those from 15 on. -/
def Obligations.IllegalOpcodeFaults : Prop :=
  (∀ (s : State) (v : Cell), s.fault = none → s.read s.ia = .ok v →
    (∀ m, s.config.opcodes.value m ≠ v) →
    step s = .next { s with fault := some (.invalidInstruction s.ia v),
                            outcome := .faulted (.invalidInstruction s.ia v) }) ∧
  ∀ v : Cell, (∀ m, OpcodeMap.reference.value m ≠ v) ↔ v < 0 ∨ 15 ≤ v

/-! ### The step -/

/-- R74: a step executes the instruction its cells decode to. A format `Z` instruction needs its one
cell only (R77). -/
def Obligations.StepRunsDecodedInstruction : Prop :=
  ∀ (s : State) (i : Instr), s.fault = none →
    (∀ v, s.read s.ia = .ok v → decode s.config.opcodes [v] = .ok (i, []) →
      step s = exec i s) ∧
    (∀ v c, s.read s.ia = .ok v → s.read (s.ia + 1) = .ok c →
      decode s.config.opcodes [v, c] = .ok (i, []) → step s = exec i s)

/-- R114, items 1 to 4: the first fault the stages reach, each with the state as it was before the
step but for the record (R82). -/
def Obligations.EarlyFaultsInOrder : Prop :=
  ∀ (s : State), s.fault = none → s.config.opcodes.injective = true →
    (∀ k, s.read s.ia = .error k →
      step s = .next { s with fault := some k, outcome := .faulted k }) ∧
    (∀ v, s.read s.ia = .ok v → (∀ m, s.config.opcodes.value m ≠ v) →
      step s = .next { s with fault := some (.invalidInstruction s.ia v),
                              outcome := .faulted (.invalidInstruction s.ia v) }) ∧
    (∀ m k, s.read s.ia = .ok (s.config.opcodes.value m) → m.arity = 1 →
      s.read (s.ia + 1) = .error k →
      step s = .next { s with fault := some k, outcome := .faulted k }) ∧
    (∀ m c, s.read s.ia = .ok (s.config.opcodes.value m) → m.arity = 1 →
      s.read (s.ia + 1) = .ok c → c < 0 →
      step s = .next { s with fault := some (.unmappedAddress c),
                              outcome := .faulted (.unmappedAddress c) })

/-- R15, R116, R132: a step answers a next state, or the recorded fault while there is one; it never
refuses. That a fault is answered as a next state first is entry 1. -/
def Obligations.StepAnswersOrStops : Prop :=
  ∀ (s : State),
    (s.fault = none ∧ ∃ t, step s = .next t) ∨ ∃ k, s.fault = some k ∧ step s = .fault k

/-- R73, R84, R118: what the last step returned has no effect on the next one, so a machine that has
halted goes on when the host runs it again. -/
def Obligations.StepIgnoresLastOutcome : Prop :=
  ∀ (s : State) (o : StepOutcome), step { s with outcome := o } = step s

/-- The invariant: valid parameters (R45, R65, R99), canonical memory below its capacity (R30),
every cell and `Acc` inside `CELL_BOUNDS` (R17), and the record agreeing with the outcome (R32). -/
def Obligations.StepKeepsInvariant : Prop :=
  ∀ (s t : State), s.wf = true → step s = .next t → t.wf = true

/-- The reset state meets the invariant. -/
def Obligations.ResetMeetsInvariant : Prop :=
  State.reset.wf = true

/-- R36: the values after reset, every cell of the RAM among them; construction gives the same
state, and so does a reset of the reference machine. That the last outcome reads `continued` is the
model's choice (entry 2). -/
def Obligations.ResetValues : Prop :=
  State.reset.ia = 0 ∧ State.reset.acc = 0 ∧ State.reset.fault = none ∧
    (∀ a, a < 256 → State.reset.read a = .ok 0) ∧ State.reset.config = Config.reference ∧
    construct [256] [{ range := { start := 0, length := 256 }, device := 0 }] OpcodeMap.reference
      none = .ok State.reset ∧
    ∀ (s : State), s.isReference = true → s.hostReset = State.reset

/-- R33, R34: no step, no load, no host write, no reset and no run changes the configuration or a
device's capacity. -/
def Obligations.ConfigurationNeverChanges : Prop :=
  ∀ (K : Type) [Field K] [LinearOrder K] [IsStrictOrderedRing K] (s t : State),
    (step s = .next t ∨ (∃ vs, s.loadProgram vs = .ok t) ∨
      (∃ a v, s.hostWrite a v = .ok t) ∨ t = s.hostReset ∨
      ∃ (f : Option (Frequency K)) (ticks : List (Tick K)), t = (run f ticks s).state) →
    t.config = s.config ∧ t.devices.map Ram.capacity = s.devices.map Ram.capacity

/-! ### The instructions, one by one

Each statement gives the instruction's encoding under the default map, the conditions on the state
and the operand under which it completes with its result (its frame is the record update: every
field not named keeps its value), and what each fault of its handler leaves. -/

/-- R88, R112: `Halt` returns `Halted` with `IA = p + 1`, changes nothing else, the fault record
among it, and is the only instruction that returns `Halted`. -/
def Obligations.HaltExecutes : Prop :=
  ∀ (s : State),
    encode OpcodeMap.reference .halt = [0] ∧
    exec .halt s = .next { s with ia := s.ia + 1, outcome := .halted } ∧
    ∀ i t, exec i s = .next t → t.outcome = .halted → i = .halt

/-- R89: `St a` at a mapped address stores `Acc` there, with the frame: no other cell of any device,
and no cell read at an address routed elsewhere, changes. Where the address cannot be accessed no
cell changes. -/
def Obligations.StExecutes : Prop :=
  ∀ (s : State) (a : Address), s.memoryWf = true →
    encode OpcodeMap.reference (.st a) = [1, (a : Cell)] ∧
    (∀ d, s.read a = .ok d →
      ∃ t, exec (.st a) s = .next t ∧ t.read a = .ok s.acc ∧
        t.ia = s.ia + 2 ∧ t.acc = s.acc ∧ t.config = s.config ∧ t.fault = s.fault ∧
        t.outcome = .continued ∧
        (∀ b, s.route b ≠ s.route a → t.read b = s.read b) ∧
        ∀ e off, s.route a ≠ .ok (e, off) → t.deviceGet e off = s.deviceGet e off) ∧
    ∀ k, s.read a = .error k →
      (k = .unmappedAddress a ∨ ∃ off, k = .outOfRange off) ∧
      exec (.st a) s = .next { s with ia := s.ia + 2, fault := some k, outcome := .faulted k }

/-- R90: `Ld a` loads the cell; it never overflows. -/
def Obligations.LdExecutes : Prop :=
  ∀ (s : State) (a : Address),
    encode OpcodeMap.reference (.ld a) = [2, (a : Cell)] ∧
    (∀ d, s.read a = .ok d →
      exec (.ld a) s =
        .next { s with ia := s.ia + 2, acc := d, outcome := .continued }) ∧
    ∀ k, s.read a = .error k →
      (k = .unmappedAddress a ∨ ∃ off, k = .outOfRange off) ∧
      exec (.ld a) s =
        .next { s with ia := s.ia + 2, fault := some k, outcome := .faulted k }

/-- R94, R91: `Add a` writes the exact sum, or faults where `CELL_BOUNDS` does not admit it. -/
def Obligations.AddExecutes : Prop :=
  ∀ (s : State) (a : Address),
    encode OpcodeMap.reference (.add a) = [3, (a : Cell)] ∧
    (∀ d, s.read a = .ok d → s.config.admits (s.acc + d) = true →
      exec (.add a) s =
        .next { s with ia := s.ia + 2, acc := s.acc + d, outcome := .continued }) ∧
    (∀ d, s.read a = .ok d → s.config.admits (s.acc + d) = false →
      exec (.add a) s =
        .next { s with ia := s.ia + 2, fault := some (.cellOverflow (s.acc + d)),
                       outcome := .faulted (.cellOverflow (s.acc + d)) }) ∧
    ∀ k, s.read a = .error k →
      (k = .unmappedAddress a ∨ ∃ off, k = .outOfRange off) ∧
      exec (.add a) s =
        .next { s with ia := s.ia + 2, fault := some k, outcome := .faulted k }

/-- R95, R91: `Neg` writes the exact negation, or faults where `CELL_BOUNDS` does not admit it. -/
def Obligations.NegExecutes : Prop :=
  ∀ (s : State),
    encode OpcodeMap.reference .neg = [4] ∧
    (s.config.admits (-s.acc) = true →
      exec .neg s = .next { s with ia := s.ia + 1, acc := -s.acc, outcome := .continued }) ∧
    (s.config.admits (-s.acc) = false →
      exec .neg s =
        .next { s with ia := s.ia + 1, fault := some (.cellOverflow (-s.acc)),
                       outcome := .faulted (.cellOverflow (-s.acc)) })

/-- R96, R91: `Mul a` writes the exact product, or faults where `CELL_BOUNDS` does not admit it. -/
def Obligations.MulExecutes : Prop :=
  ∀ (s : State) (a : Address),
    encode OpcodeMap.reference (.mul a) = [5, (a : Cell)] ∧
    (∀ d, s.read a = .ok d → s.config.admits (s.acc * d) = true →
      exec (.mul a) s =
        .next { s with ia := s.ia + 2, acc := s.acc * d, outcome := .continued }) ∧
    (∀ d, s.read a = .ok d → s.config.admits (s.acc * d) = false →
      exec (.mul a) s =
        .next { s with ia := s.ia + 2, fault := some (.cellOverflow (s.acc * d)),
                       outcome := .faulted (.cellOverflow (s.acc * d)) }) ∧
    ∀ k, s.read a = .error k →
      (k = .unmappedAddress a ∨ ∃ off, k = .outOfRange off) ∧
      exec (.mul a) s =
        .next { s with ia := s.ia + 2, fault := some k, outcome := .faulted k }

/-- R92, R97: `Div a` by a nonzero cell writes the quotient rounded away from zero: the integer `q`
with the quotient's sign and `|Acc| ≤ |q| * |d| < |Acc| + |d|`. A zero divisor, `0 ÷ 0` among them,
is a fault. -/
def Obligations.DivExecutes : Prop :=
  ∀ (s : State) (a : Address),
    encode OpcodeMap.reference (.div a) = [6, (a : Cell)] ∧
    (∀ d q : Cell, s.read a = .ok d → d ≠ 0 → q.sign = s.acc.sign * d.sign →
      |s.acc| ≤ |q| * |d| → |q| * |d| < |s.acc| + |d| →
      (s.config.admits q = true →
        exec (.div a) s = .next { s with ia := s.ia + 2, acc := q, outcome := .continued }) ∧
      (s.config.admits q = false →
        exec (.div a) s =
          .next { s with ia := s.ia + 2, fault := some (.cellOverflow q),
                         outcome := .faulted (.cellOverflow q) })) ∧
    (s.read a = .ok 0 →
      exec (.div a) s =
        .next { s with ia := s.ia + 2, fault := some (.divideByZero a),
                       outcome := .faulted (.divideByZero a) }) ∧
    ∀ k, s.read a = .error k →
      (k = .unmappedAddress a ∨ ∃ off, k = .outOfRange off) ∧
      exec (.div a) s = .next { s with ia := s.ia + 2, fault := some k, outcome := .faulted k }

/-- R98: `Sqrt` of an `Acc` that is not negative writes the least `r ≥ 0` with `r * r ≥ Acc`; of a
negative one it is a fault. -/
def Obligations.SqrtExecutes : Prop :=
  ∀ (s : State),
    encode OpcodeMap.reference .sqrt = [7] ∧
    (∀ r : Cell, 0 ≤ s.acc → 0 ≤ r → s.acc ≤ r * r →
      (∀ k : Cell, 0 ≤ k → s.acc ≤ k * k → r ≤ k) →
      (s.config.admits r = true →
        exec .sqrt s = .next { s with ia := s.ia + 1, acc := r, outcome := .continued }) ∧
      (s.config.admits r = false →
        exec .sqrt s =
          .next { s with ia := s.ia + 1, fault := some (.cellOverflow r),
                         outcome := .faulted (.cellOverflow r) })) ∧
    (s.acc < 0 →
      exec .sqrt s =
        .next { s with ia := s.ia + 1, fault := some (.sqrtOfNegative s.acc),
                       outcome := .faulted (.sqrtOfNegative s.acc) })

/-- R101: `Eq a`, equality by value. -/
def Obligations.EqExecutes : Prop :=
  ∀ (s : State) (a : Address),
    encode OpcodeMap.reference (.eq a) = [8, (a : Cell)] ∧
    (∀ d, s.read a = .ok d →
      exec (.eq a) s =
        .next { s with ia := s.ia + 2, acc := if s.acc = d then 1 else 0, outcome := .continued }) ∧
    ∀ k, s.read a = .error k →
      (k = .unmappedAddress a ∨ ∃ off, k = .outOfRange off) ∧
      exec (.eq a) s =
        .next { s with ia := s.ia + 2, fault := some k, outcome := .faulted k }

/-- R102: `Gt a`, strict and signed. -/
def Obligations.GtExecutes : Prop :=
  ∀ (s : State) (a : Address),
    encode OpcodeMap.reference (.gt a) = [9, (a : Cell)] ∧
    (∀ d, s.read a = .ok d →
      exec (.gt a) s =
        .next { s with ia := s.ia + 2, acc := if s.acc > d then 1 else 0, outcome := .continued }) ∧
    ∀ k, s.read a = .error k →
      (k = .unmappedAddress a ∨ ∃ off, k = .outOfRange off) ∧
      exec (.gt a) s =
        .next { s with ia := s.ia + 2, fault := some k, outcome := .faulted k }

/-- R103: `Not`. -/
def Obligations.NotExecutes : Prop :=
  ∀ (s : State),
    encode OpcodeMap.reference .not = [10] ∧
    exec .not s =
      .next { s with ia := s.ia + 1, acc := if s.acc = 0 then 1 else 0, outcome := .continued }

/-- R104, D8: `Or a`, on truth values; the cell is read, and its fault taken, whatever `Acc` holds. -/
def Obligations.OrExecutes : Prop :=
  ∀ (s : State) (a : Address),
    encode OpcodeMap.reference (.or a) = [11, (a : Cell)] ∧
    (∀ d, s.read a = .ok d →
      exec (.or a) s =
        .next { s with ia := s.ia + 2, acc := if s.acc ≠ 0 ∨ d ≠ 0 then 1 else 0, outcome := .continued }) ∧
    ∀ k, s.read a = .error k →
      (k = .unmappedAddress a ∨ ∃ off, k = .outOfRange off) ∧
      exec (.or a) s =
        .next { s with ia := s.ia + 2, fault := some k, outcome := .faulted k }

/-- R105, D8: `And a`, on truth values; the cell is read, and its fault taken, whatever `Acc` holds. -/
def Obligations.AndExecutes : Prop :=
  ∀ (s : State) (a : Address),
    encode OpcodeMap.reference (.and a) = [12, (a : Cell)] ∧
    (∀ d, s.read a = .ok d →
      exec (.and a) s =
        .next { s with ia := s.ia + 2, acc := if s.acc ≠ 0 ∧ d ≠ 0 then 1 else 0, outcome := .continued }) ∧
    ∀ k, s.read a = .error k →
      (k = .unmappedAddress a ∨ ∃ off, k = .outOfRange off) ∧
      exec (.and a) s =
        .next { s with ia := s.ia + 2, fault := some k, outcome := .faulted k }

/-- R106, R109: `Jmp a` takes every target, mapped or not, and never faults. -/
def Obligations.JmpExecutes : Prop :=
  ∀ (s : State) (a : Address),
    encode OpcodeMap.reference (.jmp a) = [13, (a : Cell)] ∧
    exec (.jmp a) s = .next { s with ia := a, outcome := .continued }

/-- R106, R110: `Jif a` jumps on every nonzero `Acc`, negative ones included, falls through on 0, and
never faults. -/
def Obligations.JifExecutes : Prop :=
  ∀ (s : State) (a : Address),
    encode OpcodeMap.reference (.jif a) = [14, (a : Cell)] ∧
    exec (.jif a) s =
      .next { s with ia := if s.acc ≠ 0 then a else s.ia + 2, outcome := .continued }

/-! ### Faults of stage 5 -/

/-- R83, R117: whatever instruction faults in stage 5, only `IA` has moved, past the instruction. -/
def Obligations.StageFiveFaultsPrecise : Prop :=
  ∀ (i : Instr) (s t : State) (k : Fault), exec i s = .next t → t.outcome = .faulted k →
    t = { s with ia := s.ia + i.length, fault := some k, outcome := .faulted k }

/-- R111: which instruction can raise which fault in stage 5, and on what. -/
def Obligations.FaultKindsByInstruction : Prop :=
  ∀ (i : Instr) (s t : State) (k : Fault), exec i s = .next t → t.outcome = .faulted k →
    match k with
    | .invalidInstruction _ _ => False
    | .unmappedAddress n =>
        ∃ a, i.operand? = some a ∧ n = a ∧ i ≠ .jmp a ∧ i ≠ .jif a ∧
          busFind s.config.busTable a = none
    | .outOfRange off =>
        ∃ a e, i.operand? = some a ∧ i ≠ .jmp a ∧ i ≠ .jif a ∧ s.route a = .ok (e, off)
    | .divideByZero a => i = .div a ∧ s.read a = .ok 0
    | .sqrtOfNegative v => i = .sqrt ∧ v = s.acc ∧ v < 0
    | .cellOverflow v =>
        i.mnemonic ∈ [.add, .neg, .mul, .div, .sqrt] ∧ s.config.admits v = false

/-- R55: where no range is longer than its device no step ever raises `OutOfRange`, and the
reference map is one such. -/
def Obligations.OutOfRangeNeedsLongRange : Prop :=
  (∀ (s t : State) (off : Nat),
    (∀ e ∈ s.config.busTable, ∃ r, s.devices[e.device]? = some r ∧ e.range.length ≤ r.capacity) →
    step s = .next t → t.outcome ≠ .faulted (.outOfRange off)) ∧
  ∀ (s : State), s.hasReferenceMap = true →
    ∀ e ∈ s.config.busTable, ∃ r, s.devices[e.device]? = some r ∧ e.range.length ≤ r.capacity

/-! ### Frames over all instructions -/

/-- R27: `Halt`, `St`, `Jmp` and `Jif` leave `Acc` unchanged. -/
def Obligations.AccOnlyWrittenByItsWriters : Prop :=
  ∀ (i : Instr) (s t : State), exec i s = .next t →
    i.mnemonic ∈ [.halt, .st, .jmp, .jif] → t.acc = s.acc

/-- R40, R85: an instruction other than `St` changes no cell of any device. -/
def Obligations.OnlyStWritesMemory : Prop :=
  ∀ (i : Instr) (s t : State), exec i s = .next t → i.mnemonic ≠ .st →
    t.devices = s.devices ∧ ∀ a, t.read a = s.read a

/-- R81: `IA` after `Continue`. -/
def Obligations.IaAfterContinue : Prop :=
  ∀ (i : Instr) (s t : State), exec i s = .next t → t.outcome = .continued →
    t.ia = match i with
      | .jmp a => a
      | .jif a => if s.acc ≠ 0 then a else s.ia + 2
      | _      => s.ia + i.length

/-- R99: the comparison and logic family writes exactly 1 or 0 and never overflows. -/
def Obligations.ComparisonsAreCanonical : Prop :=
  ∀ (i : Instr) (s t : State), exec i s = .next t →
    i.mnemonic ∈ [.eq, .gt, .not, .or, .and] →
    (t.outcome = .continued → t.acc = trueCell ∨ t.acc = falseCell) ∧
      ∀ v, t.outcome ≠ .faulted (.cellOverflow v)

/-- R82, R83, R32: every exec that does not fault keeps the record and the configuration, and one
that does records its own fault. -/
def Obligations.RecordChangesOnlyOnFault : Prop :=
  ∀ (i : Instr) (s t : State), exec i s = .next t →
    t.config = s.config ∧
      match t.outcome with
      | .faulted k => t.fault = some k
      | _          => t.fault = s.fault

/-- R85: a step's registers and outcome depend on the opcode cell, the operand cell and the data
cell alone: two machines that differ elsewhere in memory step alike. -/
def Obligations.StepReadsOnlyItsCells : Prop :=
  ∀ (s u t v : State), s.config = u.config → s.ia = u.ia → s.acc = u.acc → s.fault = u.fault →
    s.read s.ia = u.read s.ia → s.read (s.ia + 1) = u.read (s.ia + 1) →
    (∀ i a, s.fetch = .ok i → i.operand? = some a → s.read a = u.read a) →
    step s = .next t → step u = .next v →
    t.ia = v.ia ∧ t.acc = v.acc ∧ t.outcome = v.outcome ∧ t.fault = v.fault

/-! ### Arithmetic laws -/

/-- R92: rounding away from zero, and the root, keep the sign and the zero status. -/
def Obligations.ConversionKeepsSignAndZero : Prop :=
  (∀ q : Rat, (roundAway q = 0 ↔ q = 0) ∧ (0 < q → 1 ≤ roundAway q) ∧
      (q < 0 → roundAway q ≤ -1)) ∧
    ∀ v : Int, 0 ≤ v → (sqrtUp v = 0 ↔ v = 0) ∧ (0 < v → 1 ≤ sqrtUp v)

/-- R103, vector E4: `Not` twice normalises `Acc` to its truth value. -/
def Obligations.NotIsInvolutiveOnTruth : Prop :=
  ∀ (s : State), ∃ t u, exec .not s = .next t ∧ exec .not t = .next u ∧
    u.acc = if s.acc = 0 then 0 else 1

/-! ### Self-modification and jumps -/

/-- R59, R89: a store to the next opcode cell is what the very next step fetches. -/
def Obligations.StoreToNextOpcodeIsFetched : Prop :=
  ∀ (s : State) (d : Cell) (i : Instr), s.memoryWf = true → s.fault = none →
    s.read (s.ia + 2) = .ok d → decode s.config.opcodes [s.acc] = .ok (i, []) →
    ∃ t, exec (.st (s.ia + 2)) s = .next t ∧ step t = exec i t

/-- R59, R145: a store into its own operand cell uses the operand already read. -/
def Obligations.StoreToOwnOperandUsesOldOperand : Prop :=
  ∀ (s : State), s.memoryWf = true → s.fault = none → s.config.opcodes.injective = true →
    s.read s.ia = .ok (s.config.opcodes.value .st) → s.read (s.ia + 1) = .ok ((s.ia + 1 : Nat) : Cell) →
    ∃ t, step s = .next t ∧ t.read (s.ia + 1) = .ok s.acc ∧ t.ia = s.ia + 2 ∧
      t.outcome = .continued

/-- R71, R107: a jump to an unmapped target executes, and the next fetch faults. -/
def Obligations.UnmappedTargetFaultsAtNextFetch : Prop :=
  ∀ (s : State) (a : Address), s.fault = none → busFind s.config.busTable a = none →
    ∃ t, exec (.jmp a) s = .next t ∧ t.ia = a ∧
      step t = .next { t with fault := some (.unmappedAddress a),
                              outcome := .faulted (.unmappedAddress a) }

/-! ### The Bus and the RAM -/

/-- R45: two ranges overlap exactly when some address lies in both. -/
def Obligations.OverlapMeansSharedAddress : Prop :=
  ∀ (r q : AddressRange),
    r.overlaps q = true ↔ ∃ a : Address, r.owns a = true ∧ q.owns a = true

/-- R45: when attach refuses, with what, and what it does otherwise. -/
def Obligations.AttachChecksRanges : Prop :=
  ∀ (s : State) (e : Attachment), e.device < s.devices.length →
    (e.range.length < 0 → s.attach e = .error (.configError .negativeLength)) ∧
    (0 ≤ e.range.length →
      (∃ f ∈ s.config.busTable, ∃ a, f.range.owns a = true ∧ e.range.owns a = true) →
      s.attach e = .error (.configError .overlap)) ∧
    (0 ≤ e.range.length →
      (∀ f ∈ s.config.busTable, ∀ a, ¬ (f.range.owns a = true ∧ e.range.owns a = true)) →
      s.attach e =
        .ok { s with config := { s.config with busTable := s.config.busTable ++ [e] } })

/-- R48: with a table no two of whose ranges overlap, reads and writes do not depend on its order. -/
def Obligations.BusOrderDoesNotMatter : Prop :=
  ∀ (s u : State), busTableValid s.config.busTable = true →
    s.config.busTable.Perm u.config.busTable → u.devices = s.devices →
    ∀ a v, u.read a = s.read a ∧
      (u.write a v).map State.devices = (s.write a v).map State.devices

/-- R49, R53: the reference map. -/
def Obligations.ReferenceMap : Prop :=
  ∀ (s : State), s.hasReferenceMap = true → ∀ (a : Address) (v : Cell),
    (a < 256 → s.route a = .ok (0, a) ∧ (∃ d, s.read a = .ok d) ∧ ∃ t, s.write a v = .ok t) ∧
    (256 ≤ a → s.read a = .error (.unmappedAddress a) ∧
      s.write a v = .error (.unmappedAddress a))

/-- R46, R47: with a valid table, the range that owns the address decides: its device's cell at the
local offset, `OutOfRange` where the device has none, `UnmappedAddress` where no range owns it; a
write to the cell is read back. -/
def Obligations.BusRoutesAccess : Prop :=
  ∀ (s : State) (a : Address) (v : Cell), busTableValid s.config.busTable = true →
    (∀ e r, e ∈ s.config.busTable → e.range.start ≤ a → (a : Int) < e.range.start + e.range.length →
      s.devices[e.device]? = some r →
      (a - e.range.start < r.capacity →
        s.read a = .ok (r.cells.read (a - e.range.start)) ∧
        s.write a v = .ok { s with
          devices := s.devices.set e.device { r with cells := r.cells.write (a - e.range.start) v } }) ∧
      (r.capacity ≤ a - e.range.start →
        s.read a = .error (.outOfRange (a - e.range.start)) ∧
        s.write a v = .error (.outOfRange (a - e.range.start)))) ∧
    ((∀ e ∈ s.config.busTable, ¬ (e.range.start ≤ a ∧ (a : Int) < e.range.start + e.range.length)) →
      s.read a = .error (.unmappedAddress a) ∧ s.write a v = .error (.unmappedAddress a))

/-- R42, R43, R44: a new RAM holds 0 everywhere; a `set` below the capacity changes exactly one cell
and keeps the length and the canonical form; at or above the capacity both `get` and `set` raise
`OutOfRange`; `clear` sets every cell to 0. -/
def Obligations.RamBehaves : Prop :=
  (∀ c off, off < c → (Ram.new c).get off = .ok 0 ∧ (Ram.new c).len = c) ∧
  ∀ (r : Ram) (off : Nat) (v : Cell), r.wf = true →
    (off < r.capacity → ∃ q, r.set off v = .ok q ∧ q.get off = .ok v ∧
      (∀ o, o ≠ off → q.get o = r.get o) ∧ q.len = r.len ∧ q.wf = true) ∧
    (r.capacity ≤ off →
      r.get off = .error (.outOfRange off) ∧ r.set off v = .error (.outOfRange off)) ∧
    (off < r.capacity → r.clear.get off = .ok 0) ∧ r.clear.len = r.len

/-! ### The host's operations -/

/-- R129: reset, in every configuration. That it clears every RAM, where R129 speaks of the one RAM, is
entry 10. -/
def Obligations.ResetClears : Prop :=
  ∀ (s : State),
    s.hostReset.ia = 0 ∧ s.hostReset.acc = 0 ∧ s.hostReset.fault = none ∧
      s.hostReset.config = s.config ∧
      s.hostReset.devices.map Ram.capacity = s.devices.map Ram.capacity ∧
      (∀ e off d, s.deviceGet e off = .ok d → s.hostReset.deviceGet e off = .ok 0) ∧
      (∀ a d, s.read a = .ok d → s.hostReset.read a = .ok 0) ∧
      ∀ a k, s.read a = .error k → s.hostReset.read a = .error k

/-- R130: a program longer than the RAM is refused; so is one with a value outside `CELL_BOUNDS`; with
the reference map any other is written from address 0 and nothing else changes. -/
def Obligations.LoadProgramLoads : Prop :=
  ∀ (s : State) (values : List HostValue),
    (s.ramCapacity < values.length →
      s.loadProgram values = .error (.programTooLarge values.length)) ∧
    (values.length ≤ s.ramCapacity →
      (∃ v ∈ values, s.config.admits (v.cell s.config.opcodes) = false) →
      ∃ c, s.config.admits c = false ∧ c ∈ values.map (HostValue.cell s.config.opcodes) ∧
        s.loadProgram values = .error (.accessFault (.cellOverflow c))) ∧
    (s.hasReferenceMap = true → s.memoryWf = true → values.length ≤ 256 →
      (∀ v ∈ values, s.config.admits (v.cell s.config.opcodes) = true) →
      ∃ t, s.loadProgram values = .ok t ∧
        (∀ (n : Nat) (h : n < values.length),
          t.read n = .ok (values[n].cell s.config.opcodes)) ∧
        (∀ a, values.length ≤ a → t.read a = s.read a) ∧
        t.ia = s.ia ∧ t.acc = s.acc ∧ t.fault = s.fault ∧ t.config = s.config)

/-- R131: a host write that succeeds is read back, touches no register and no record; where the Bus
faults both host operations report that fault. -/
def Obligations.HostAccessGoesThroughBus : Prop :=
  ∀ (s : State) (a : Address) (v : HostValue), s.memoryWf = true →
    (∀ d, s.read a = .ok d → s.hostRead a = .ok d) ∧
    (∀ k, s.read a = .error k → s.hostRead a = .error (.accessFault k)) ∧
    (∀ t, s.hostWrite a v = .ok t →
      t.hostRead a = .ok (v.cell s.config.opcodes) ∧ t.ia = s.ia ∧ t.acc = s.acc ∧
        t.fault = s.fault ∧ ∀ b, s.route b ≠ s.route a → t.read b = s.read b) ∧
    (s.config.admits (v.cell s.config.opcodes) = true → ∀ d, s.read a = .ok d →
      ∃ t, s.hostWrite a v = .ok t) ∧
    (s.config.admits (v.cell s.config.opcodes) = true → ∀ k, s.read a = .error k →
      s.hostWrite a v = .error (.accessFault k)) ∧
    (s.config.admits (v.cell s.config.opcodes) = false →
      s.hostWrite a v = .error (.accessFault (.cellOverflow (v.cell s.config.opcodes))))

/-- R37: the debug view shows `IA`, `Acc` and every cell of every RAM. One list for each RAM, in the
order of the devices, is entry 10. -/
def Obligations.InspectShowsState : Prop :=
  ∀ (s : State), s.inspect.ia = s.ia ∧ s.inspect.acc = s.acc ∧
    s.inspect.ram.length = s.devices.length ∧
    ∀ (d : Nat) (r : Ram), s.devices[d]? = some r →
      ∃ cells, s.inspect.ram[d]? = some cells ∧ cells.length = r.capacity ∧
        ∀ off, off < r.capacity → ∃ v, cells[off]? = some v ∧ r.get off = .ok v

/-- R69, R72: the image of a program in the source's notation is its instructions' encodings and its
raw integers, in order. -/
def Obligations.AssembledImageIsEncoding : Prop :=
  ∀ (map : OpcodeMap) (items : List ProgramItem),
    (assemble items).map (HostValue.cell map) =
      items.flatMap fun item =>
        match item with
        | .instr i => encode map i
        | .data k  => [k]

/-! ### The run loop

`K` is the field of frequencies and times: the reals of R137, or any other ordered field. -/

/-- R132: while a fault is recorded `run` makes no step, takes no time and returns it. That `step`
then answers the host's `fault` is entry 1. -/
def Obligations.FaultedMachineDoesNotRun : Prop :=
  ∀ (K : Type) [Field K] [LinearOrder K] [IsStrictOrderedRing K]
    (s : State) (k : Fault) (f : Option (Frequency K)) (ticks : List (Tick K)), s.fault = some k →
    run f ticks s = { result := .faulted k, state := s, time := 0, continued := 0,
                      diagnostics := [] } ∧
      step s = .fault k

/-- R137: exactly the finite frequencies above 0 are accepted, with period `10^9 / F`; any other
makes `run` return before any step. -/
def Obligations.BadFrequencyRefused : Prop :=
  ∀ (K : Type) [Field K] [LinearOrder K] [IsStrictOrderedRing K],
  (∀ hz : K, 0 < hz → (Frequency.finite hz).period? = some (10 ^ 9 / hz)) ∧
  ∀ (s : State) (f : Frequency K) (ticks : List (Tick K)), s.fault = none →
    ((∃ hz, f = .finite hz ∧ hz ≤ 0) ∨ (∃ b, f = .infinite b) ∨ f = .notANumber) →
    run (some f) ticks s = { result := .badFrequency, state := s, time := 0, continued := 0,
                             diagnostics := [] }

/-- R138: throttling changes no state and no outcome: for every valid frequency, and whatever the
clock does, a run makes the same steps as the unthrottled one. -/
def Obligations.TimingNeverChangesResults : Prop :=
  ∀ (K : Type) [Field K] [LinearOrder K] [IsStrictOrderedRing K]
    (s : State) (f : Frequency K) (p : K) (ticks ticks' : List (Tick K)), f.period? = some p →
    ticks.length = ticks'.length →
    (run (some f) ticks s).result = (run none ticks' s).result ∧
      (run (some f) ticks s).state = (run none ticks' s).state ∧
      (run (some f) ticks s).continued = (run none ticks' s).continued

/-- R139: when `K` steps have returned `Continue`, at least `K * P` nanoseconds have passed. -/
def Obligations.ThrottledRunIsNeverEarly : Prop :=
  ∀ (K : Type) [Field K] [LinearOrder K] [IsStrictOrderedRing K]
    (s : State) (f : Frequency K) (p : K) (ticks : List (Tick K)), f.period? = some p →
    ((run (some f) ticks s).continued : K) * p ≤ (run (some f) ticks s).time

/-- R116, R135: a run that ends in a fault has recorded it, a run that is still going
has had `Continue` of every step, no run ends in a refusal, and `Halted` is not recorded. -/
def Obligations.RunEndsOnHaltOrFault : Prop :=
  ∀ (K : Type) [Field K] [LinearOrder K] [IsStrictOrderedRing K]
    (s : State) (f : Option (Frequency K)) (ticks : List (Tick K)),
    (∀ k, (run f ticks s).result = .faulted k → (run f ticks s).state.fault = some k) ∧
    ((run f ticks s).result = .running → (run f ticks s).continued = ticks.length) ∧
    (∀ r, (run f ticks s).result ≠ .refused r) ∧
    (s.fault = none → (run f ticks s).result = .halted →
      (run f ticks s).state.fault = none ∧ (run f ticks s).state.outcome = .halted)

/-- R135: a run of which `State.safeFor` holds is one that does not end in a fault. -/
def Obligations.SafeRunNeverFaults : Prop :=
  ∀ (K : Type) [Field K] [LinearOrder K] [IsStrictOrderedRing K]
    (s : State) (ticks : List (Tick K)), s.fault = none →
    (s.safeFor ticks.length = true ↔ ∀ k, (run none ticks s).result ≠ .faulted k)
end

