-- ==== Sys2Proof/Laws/Memory.lean ====
section
/-! SUPPORT. The laws of a device's cells: what a write reads back as, what it leaves alone, and that it keeps the canonical form. -/

namespace Sys2Proof.Machine

theorem Memory.wf_iff (m : Memory) :
    m.wf = true ↔ m.Pairwise (fun p q => p.1 < q.1) ∧ ∀ p ∈ m, p.2 ≠ 0 := by
  simp [Memory.wf]

@[simp] theorem Memory.read_nil (off : Nat) : Memory.read [] off = 0 := rfl

theorem Memory.read_cons (k : Nat) (v : Cell) (m : Memory) (off : Nat) :
    Memory.read ((k, v) :: m) off = if k = off then v else Memory.read m off := rfl

/-- Below the least listed offset every cell reads 0. -/
theorem Memory.read_of_lt (m : Memory) (off : Nat) (h : ∀ p ∈ m, off < p.1) : m.read off = 0 := by
  induction m with
  | nil => rfl
  | cons p rest ih =>
    obtain ⟨k, v⟩ := p
    have hk : off < k := h (k, v) (by simp)
    rw [Memory.read_cons, if_neg (by omega), ih fun q hq => h q (by simp [hq])]

theorem Memory.read_write_same (m : Memory) (off : Nat) (v : Cell)
    (h : m.Pairwise fun p q => p.1 < q.1) : (m.write off v).read off = v := by
  induction m with
  | nil => by_cases hv : v = 0 <;> simp [Memory.write, hv, Memory.read_cons]
  | cons p rest ih =>
    obtain ⟨k, w⟩ := p
    obtain ⟨hlt, hrest⟩ := List.pairwise_cons.1 h
    by_cases h1 : k < off
    · simp [Memory.write, h1, Memory.read_cons, ih hrest, Nat.ne_of_lt h1]
    · by_cases h2 : k = off
      · by_cases hv : v = 0
        · have := Memory.read_of_lt rest off fun q hq => h2 ▸ hlt q hq
          simp [Memory.write, h2, hv, this]
        · simp [Memory.write, h2, hv, Memory.read_cons]
      · by_cases hv : v = 0
        · have : Memory.read rest off = 0 :=
            Memory.read_of_lt rest off fun q hq => by have := hlt q hq; simp at this; omega
          simp [Memory.write, h1, h2, hv, Memory.read_cons, this]
        · simp [Memory.write, h1, h2, hv, Memory.read_cons]

theorem Memory.read_write_other (m : Memory) (off off' : Nat) (v : Cell) (hne : off' ≠ off) :
    (m.write off v).read off' = m.read off' := by
  induction m with
  | nil => by_cases hv : v = 0 <;> simp [Memory.write, hv, Memory.read_cons, hne.symm]
  | cons p rest ih =>
    obtain ⟨k, w⟩ := p
    by_cases h1 : k < off
    · simp [Memory.write, h1, Memory.read_cons, ih]
    · by_cases h2 : k = off
      · by_cases hv : v = 0 <;> simp [Memory.write, h2, hv, Memory.read_cons, hne.symm]
      · by_cases hv : v = 0 <;> simp [Memory.write, h1, h2, hv, Memory.read_cons, hne.symm]

/-- A write lists nothing but what was listed and the written cell. -/
theorem Memory.mem_write (m : Memory) (off : Nat) (v : Cell) (p : Nat × Cell)
    (h : p ∈ m.write off v) : p ∈ m ∨ (p = (off, v) ∧ v ≠ 0) := by
  induction m with
  | nil =>
    by_cases hv : v = 0
    · simp [Memory.write, hv] at h
    · simp [Memory.write, hv] at h; exact .inr ⟨h, hv⟩
  | cons q rest ih =>
    obtain ⟨k, w⟩ := q
    simp only [Memory.write] at h
    split at h
    · rcases List.mem_cons.1 h with rfl | h
      · simp
      · rcases ih h with h | h
        · exact .inl (by simp [h])
        · exact .inr h
    · split at h
      · split at h
        · exact .inl (by simp [h])
        · rcases List.mem_cons.1 h with rfl | h
          · exact .inr ⟨rfl, ‹_›⟩
          · exact .inl (by simp [h])
      · split at h
        · exact .inl h
        · rcases List.mem_cons.1 h with rfl | h
          · exact .inr ⟨rfl, ‹_›⟩
          · exact .inl h

theorem Memory.write_wf (m : Memory) (off : Nat) (v : Cell) (h : m.wf = true) :
    (m.write off v).wf = true := by
  rw [Memory.wf_iff] at h ⊢
  refine ⟨?_, fun p hp => ?_⟩
  · obtain ⟨h, -⟩ := h
    induction m with
    | nil => by_cases hv : v = 0 <;> simp [Memory.write, hv]
    | cons q rest ih =>
      obtain ⟨k, w⟩ := q
      obtain ⟨hlt, hrest⟩ := List.pairwise_cons.1 h
      simp only [Memory.write]
      split
      · refine List.pairwise_cons.2 ⟨fun p hp => ?_, ih hrest⟩
        rcases Memory.mem_write rest off v p hp with hp | ⟨rfl, -⟩
        · exact hlt p hp
        · assumption
      · split
        · split
          · exact hrest
          · exact List.pairwise_cons.2 ⟨fun p hp => by have := hlt p hp; simp_all, hrest⟩
        · split
          · exact h
          · refine List.pairwise_cons.2 ⟨fun p hp => ?_, h⟩
            rcases List.mem_cons.1 hp with rfl | hp
            · simp; omega
            · have := hlt p hp; simp at this ⊢; omega
  · rcases Memory.mem_write m off v p hp with hp | ⟨rfl, hv⟩
    · exact h.2 p hp
    · exact hv

/-- Two canonical memories that read alike are the same data. -/
theorem Memory.ext_read (m n : Memory) (hm : m.wf = true) (hn : n.wf = true)
    (h : ∀ off, m.read off = n.read off) : m = n := by
  induction m generalizing n with
  | nil =>
    cases n with
    | nil => rfl
    | cons q rest =>
      obtain ⟨k, v⟩ := q
      have := h k
      rw [Memory.wf_iff] at hn
      simp [Memory.read_cons] at this
      exact absurd this.symm (hn.2 (k, v) (by simp))
  | cons p rest ih =>
    obtain ⟨k, v⟩ := p
    cases n with
    | nil =>
      have := h k
      rw [Memory.wf_iff] at hm
      simp [Memory.read_cons] at this
      exact absurd this (hm.2 (k, v) (by simp))
    | cons q rest' =>
      obtain ⟨k', v'⟩ := q
      rw [Memory.wf_iff] at hm hn
      obtain ⟨hlt, hrest⟩ := List.pairwise_cons.1 hm.1
      obtain ⟨hlt', hrest'⟩ := List.pairwise_cons.1 hn.1
      have hv : v ≠ 0 := hm.2 (k, v) (by simp)
      have hv' : v' ≠ 0 := hn.2 (k', v') (by simp)
      have hk : k = k' := by
        rcases Nat.lt_trichotomy k k' with hlt1 | heq | hlt1
        · have := h k
          rw [Memory.read_cons, if_pos rfl, Memory.read_cons, if_neg (by omega),
            Memory.read_of_lt rest' k fun q hq => by have := hlt' q hq; simp at this; omega] at this
          exact absurd this hv
        · exact heq
        · have := h k'
          rw [Memory.read_cons, if_neg (by omega), Memory.read_cons, if_pos rfl,
            Memory.read_of_lt rest k' fun q hq => by have := hlt q hq; simp at this; omega] at this
          exact absurd this.symm hv'
      subst hk
      have hvv : v = v' := by have := h k; simpa [Memory.read_cons] using this
      subst hvv
      congr 1
      refine ih rest' ((Memory.wf_iff _).2 ⟨hrest, fun p hp => hm.2 p (by simp [hp])⟩)
        ((Memory.wf_iff _).2 ⟨hrest', fun p hp => hn.2 p (by simp [hp])⟩) fun off => ?_
      by_cases hoff : k = off
      · subst hoff
        rw [Memory.read_of_lt rest k fun q hq => hlt q hq,
          Memory.read_of_lt rest' k fun q hq => hlt' q hq]
      · have := h off
        simpa [Memory.read_cons, hoff] using this

theorem Ram.wf_iff (r : Ram) :
    r.wf = true ↔ r.cells.wf = true ∧ ∀ p ∈ r.cells, p.1 < r.capacity := by
  simp [Ram.wf]

theorem Ram.new_wf (capacity : Nat) : (Ram.new capacity).wf = true := rfl

theorem Ram.clear_wf (r : Ram) : r.clear.wf = true := rfl

/-- All a RAM `set` can do: below the capacity it writes one cell and keeps the capacity. -/
theorem Ram.set_eq_ok {r r' : Ram} {off : Nat} {v : Cell} (h : r.set off v = .ok r') :
    off < r.capacity ∧ r' = { r with cells := r.cells.write off v } := by
  unfold Ram.set at h
  split at h
  · exact ⟨‹_›, by cases h; rfl⟩
  · cases h

theorem Ram.set_wf {r r' : Ram} {off : Nat} {v : Cell} (h : r.set off v = .ok r')
    (hr : r.wf = true) : r'.wf = true := by
  obtain ⟨hoff, rfl⟩ := Ram.set_eq_ok h
  rw [Ram.wf_iff] at hr ⊢
  refine ⟨Memory.write_wf _ _ _ hr.1, fun p hp => ?_⟩
  rcases Memory.mem_write _ _ _ _ hp with hp | ⟨rfl, -⟩
  · exact hr.2 p hp
  · exact hoff

end Sys2Proof.Machine
end

