-- ==== Sys2Proof/Laws/State.lean ====
section
/-! SUPPORT. Every update of the state, field by field, so that no proof unfolds a record update. -/

namespace Sys2Proof.Machine

@[simp] theorem State.advance_config (s : State) (n : Nat) :
    (s.advance n).config = s.config := rfl

@[simp] theorem State.advance_ia (s : State) (n : Nat) :
    (s.advance n).ia = s.ia + n := rfl

@[simp] theorem State.advance_acc (s : State) (n : Nat) :
    (s.advance n).acc = s.acc := rfl

@[simp] theorem State.advance_devices (s : State) (n : Nat) :
    (s.advance n).devices = s.devices := rfl

@[simp] theorem State.advance_fault (s : State) (n : Nat) :
    (s.advance n).fault = s.fault := rfl

@[simp] theorem State.advance_outcome (s : State) (n : Nat) :
    (s.advance n).outcome = s.outcome := rfl

@[simp] theorem State.setAcc_config (s : State) (v : Cell) :
    (s.setAcc v).config = s.config := rfl

@[simp] theorem State.setAcc_ia (s : State) (v : Cell) :
    (s.setAcc v).ia = s.ia := rfl

@[simp] theorem State.setAcc_acc (s : State) (v : Cell) :
    (s.setAcc v).acc = v := rfl

@[simp] theorem State.setAcc_devices (s : State) (v : Cell) :
    (s.setAcc v).devices = s.devices := rfl

@[simp] theorem State.setAcc_fault (s : State) (v : Cell) :
    (s.setAcc v).fault = s.fault := rfl

@[simp] theorem State.setAcc_outcome (s : State) (v : Cell) :
    (s.setAcc v).outcome = s.outcome := rfl

@[simp] theorem State.setIa_config (s : State) (a : Address) :
    (s.setIa a).config = s.config := rfl

@[simp] theorem State.setIa_ia (s : State) (a : Address) :
    (s.setIa a).ia = a := rfl

@[simp] theorem State.setIa_acc (s : State) (a : Address) :
    (s.setIa a).acc = s.acc := rfl

@[simp] theorem State.setIa_devices (s : State) (a : Address) :
    (s.setIa a).devices = s.devices := rfl

@[simp] theorem State.setIa_fault (s : State) (a : Address) :
    (s.setIa a).fault = s.fault := rfl

@[simp] theorem State.setIa_outcome (s : State) (a : Address) :
    (s.setIa a).outcome = s.outcome := rfl

@[simp] theorem State.setDevice_config (s : State) (d : Nat) (r : Ram) :
    (s.setDevice d r).config = s.config := rfl

@[simp] theorem State.setDevice_ia (s : State) (d : Nat) (r : Ram) :
    (s.setDevice d r).ia = s.ia := rfl

@[simp] theorem State.setDevice_acc (s : State) (d : Nat) (r : Ram) :
    (s.setDevice d r).acc = s.acc := rfl

@[simp] theorem State.setDevice_devices (s : State) (d : Nat) (r : Ram) :
    (s.setDevice d r).devices = s.devices.set d r := rfl

@[simp] theorem State.setDevice_fault (s : State) (d : Nat) (r : Ram) :
    (s.setDevice d r).fault = s.fault := rfl

@[simp] theorem State.setDevice_outcome (s : State) (d : Nat) (r : Ram) :
    (s.setDevice d r).outcome = s.outcome := rfl

@[simp] theorem State.takeFault_config (s : State) (k : Fault) :
    (s.takeFault k).config = s.config := rfl

@[simp] theorem State.takeFault_ia (s : State) (k : Fault) :
    (s.takeFault k).ia = s.ia := rfl

@[simp] theorem State.takeFault_acc (s : State) (k : Fault) :
    (s.takeFault k).acc = s.acc := rfl

@[simp] theorem State.takeFault_devices (s : State) (k : Fault) :
    (s.takeFault k).devices = s.devices := rfl

@[simp] theorem State.takeFault_fault (s : State) (k : Fault) :
    (s.takeFault k).fault = some k := rfl

@[simp] theorem State.takeFault_outcome (s : State) (k : Fault) :
    (s.takeFault k).outcome = .faulted k := rfl

@[simp] theorem State.returnContinue_config (s : State) :
    (s.returnContinue).config = s.config := rfl

@[simp] theorem State.returnContinue_ia (s : State) :
    (s.returnContinue).ia = s.ia := rfl

@[simp] theorem State.returnContinue_acc (s : State) :
    (s.returnContinue).acc = s.acc := rfl

@[simp] theorem State.returnContinue_devices (s : State) :
    (s.returnContinue).devices = s.devices := rfl

@[simp] theorem State.returnContinue_fault (s : State) :
    (s.returnContinue).fault = s.fault := rfl

@[simp] theorem State.returnContinue_outcome (s : State) :
    (s.returnContinue).outcome = .continued := rfl

@[simp] theorem State.returnHalted_config (s : State) :
    (s.returnHalted).config = s.config := rfl

@[simp] theorem State.returnHalted_ia (s : State) :
    (s.returnHalted).ia = s.ia := rfl

@[simp] theorem State.returnHalted_acc (s : State) :
    (s.returnHalted).acc = s.acc := rfl

@[simp] theorem State.returnHalted_devices (s : State) :
    (s.returnHalted).devices = s.devices := rfl

@[simp] theorem State.returnHalted_fault (s : State) :
    (s.returnHalted).fault = s.fault := rfl

@[simp] theorem State.returnHalted_outcome (s : State) :
    (s.returnHalted).outcome = .halted := rfl

@[simp] theorem State.hostReset_config (s : State) :
    (s.hostReset).config = s.config := rfl

@[simp] theorem State.hostReset_ia (s : State) :
    (s.hostReset).ia = 0 := rfl

@[simp] theorem State.hostReset_acc (s : State) :
    (s.hostReset).acc = falseCell := rfl

@[simp] theorem State.hostReset_devices (s : State) :
    (s.hostReset).devices = s.devices.map Ram.clear := rfl

@[simp] theorem State.hostReset_fault (s : State) :
    (s.hostReset).fault = none := rfl

@[simp] theorem State.hostReset_outcome (s : State) :
    (s.hostReset).outcome = .continued := rfl

end Sys2Proof.Machine
end

