-- ==== Sys2Proof/Laws/Bus.lean ====
section
/-! SUPPORT. The Bus: when an access succeeds, what a write changes, and what no register write touches. -/

namespace Sys2Proof.Machine

/-- Routing looks at the bus table alone. -/
theorem State.route_congr {s t : State} (h : s.config = t.config) (a : Address) :
    s.route a = t.route a := by
  simp [State.route, h]

/-- A read looks at the bus table and the devices alone. -/
theorem State.read_congr {s t : State} (hc : s.config = t.config) (hd : s.devices = t.devices)
    (a : Address) : s.read a = t.read a := by
  simp [State.read, State.route_congr hc, State.deviceGet, hd]

@[simp] theorem State.read_advance (s : State) (n : Nat) (a : Address) :
    (s.advance n).read a = s.read a := State.read_congr rfl rfl a

@[simp] theorem State.read_setAcc (s : State) (v : Cell) (a : Address) :
    (s.setAcc v).read a = s.read a := State.read_congr rfl rfl a

@[simp] theorem State.read_setIa (s : State) (b a : Address) :
    (s.setIa b).read a = s.read a := State.read_congr rfl rfl a

@[simp] theorem State.read_takeFault (s : State) (k : Fault) (a : Address) :
    (s.takeFault k).read a = s.read a := State.read_congr rfl rfl a

@[simp] theorem State.read_returnContinue (s : State) (a : Address) :
    s.returnContinue.read a = s.read a := State.read_congr rfl rfl a

@[simp] theorem State.read_returnHalted (s : State) (a : Address) :
    s.returnHalted.read a = s.read a := State.read_congr rfl rfl a

/-- All a successful write can do: one cell of one device. -/
theorem State.write_eq_ok {s t : State} {a : Address} {v : Cell} (h : s.write a v = .ok t) :
    ∃ d off r, s.route a = .ok (d, off) ∧ s.devices[d]? = some r ∧ off < r.capacity ∧
      t = s.setDevice d { r with cells := r.cells.write off v } := by
  simp only [State.write] at h
  split at h
  · cases h
  · rename_i d off hroute
    simp only [State.deviceSet] at h
    split at h
    · cases h
    · rename_i r hr
      split at h
      · cases h
      · rename_i r' hset
        cases h
        obtain ⟨hoff, rfl⟩ := Ram.set_eq_ok hset
        exact ⟨d, off, r, hroute, hr, hoff, rfl⟩

/-- A cell can be read exactly where it can be written; the faults are the same. -/
theorem State.read_eq_ok {s : State} {a : Address} {v : Cell} (h : s.read a = .ok v) :
    ∃ d off r, s.route a = .ok (d, off) ∧ s.devices[d]? = some r ∧ off < r.capacity ∧
      r.cells.read off = v := by
  simp only [State.read] at h
  split at h
  · cases h
  · rename_i d off hroute
    simp only [State.deviceGet] at h
    split at h
    · cases h
    · rename_i r hr
      simp only [Ram.get] at h
      split at h
      · cases h; exact ⟨d, off, r, hroute, hr, ‹_›, rfl⟩
      · cases h

/-- A read faults with one of two kinds, and the first names the address itself. -/
theorem State.read_error {s : State} {a : Address} {k : Fault} (h : s.read a = .error k) :
    k = .unmappedAddress a ∨ ∃ off, k = .outOfRange off := by
  simp only [State.read, State.route, State.deviceGet, Ram.get] at h
  grind

theorem State.read_of_route {s : State} {a : Address} {d off : Nat} {r : Ram}
    (h1 : s.route a = .ok (d, off)) (h2 : s.devices[d]? = some r) (h3 : off < r.capacity) :
    s.read a = .ok (r.cells.read off) := by
  simp [State.read, h1, State.deviceGet, h2, Ram.get, h3]

theorem State.write_of_route {s : State} {a : Address} {d off : Nat} {r : Ram} {v : Cell}
    (h1 : s.route a = .ok (d, off)) (h2 : s.devices[d]? = some r) (h3 : off < r.capacity) :
    s.write a v = .ok (s.setDevice d { r with cells := r.cells.write off v }) := by
  simp [State.write, h1, State.deviceSet, h2, Ram.set, h3]

/-- A fault of a read is the fault of a write at the same address. -/
theorem State.write_eq_error {s : State} {a : Address} {k : Fault} (v : Cell)
    (h : s.read a = .error k) : s.write a v = .error k := by
  simp only [State.read] at h
  simp only [State.write]
  split at h
  · cases h; simp [*]
  · rename_i d off hroute
    simp only [State.deviceGet] at h
    simp only [State.deviceSet]
    split at h
    · cases h; simp [*]
    · rename_i r hr
      simp only [Ram.get] at h
      simp only [Ram.set]
      split at h
      · cases h
      · cases h; simp [*]

end Sys2Proof.Machine
end

