-- ==== Sys2Proof/Laws/Cells.lean ====
section
/-! SUPPORT. What the integer helpers compute: the floor of a root, `sqrtUp`, and `roundAway` of a quotient of integers. -/

namespace Sys2Proof

theorem Config.admits_none {cfg : Config} (h : cfg.cellBounds = none) (v : Cell) :
    cfg.admits v = true := by simp [Config.admits, h]

/-- With enough fuel, `floorSqrt` is the floor of the square root. -/
theorem floorSqrt_spec (fuel n : Nat) (h : n < 4 ^ fuel) :
    floorSqrt fuel n * floorSqrt fuel n ≤ n ∧
      n < (floorSqrt fuel n + 1) * (floorSqrt fuel n + 1) := by
  induction fuel generalizing n with
  | zero => simp at h; subst h; simp [floorSqrt]
  | succ fuel ih =>
    obtain ⟨h1, h2⟩ := ih (n / 4) (by rw [pow_succ] at h; omega)
    simp only [floorSqrt]
    generalize floorSqrt fuel (n / 4) = r at h1 h2
    have hlo : (2 * r) * (2 * r) ≤ n := by
      have : (2 * r) * (2 * r) = 4 * (r * r) := by ring
      omega
    have hhi : n < (2 * r + 2) * (2 * r + 2) := by
      have : (2 * r + 2) * (2 * r + 2) = 4 * ((r + 1) * (r + 1)) := by ring
      omega
    split
    · exact ⟨‹_›, by simpa [Nat.add_assoc] using hhi⟩
    · exact ⟨hlo, by omega⟩

theorem lt_four_pow_log2 (n : Nat) : n < 4 ^ (n.log2 + 1) := by
  have h : n < 2 ^ (n.log2 + 1) := Nat.lt_log2_self
  exact lt_of_lt_of_le h (Nat.pow_le_pow_left (by omega) _)

/-- The root `sqrtUp` picks between the floor and the next integer. -/
theorem sqrtUp_nonneg (v : Int) : 0 ≤ sqrtUp v := by
  unfold sqrtUp
  dsimp only
  split <;> omega

theorem roundAway_zero : roundAway 0 = 0 := by simp [roundAway]

theorem roundAway_of_pos {q : Rat} (h : 0 < q) : roundAway q = ⌈q⌉ := by
  rw [roundAway, if_neg h.ne', if_pos h, Rat.ceil_eq_neg_floor_neg]
  rfl

theorem roundAway_of_neg {q : Rat} (h : q < 0) : roundAway q = -⌈-q⌉ := by
  rw [roundAway, if_neg h.ne, if_neg (not_lt.2 h.le), Rat.ceil_eq_neg_floor_neg]
  rfl

end Sys2Proof
end

