-- ==== Sys2Proof/Laws/Decode.lean ====
section
/-! SUPPORT. The decoder's parts: the opcode lookup under an injective map, operand conversion, and the formats. -/

namespace Sys2Proof

@[simp] theorem Mnemonic.mem_all (m : Mnemonic) : m ∈ Mnemonic.all := by cases m <;> decide

/-- What the lookup finds has the value looked for. -/
theorem OpcodeMap.value_of_mnemonic? {map : OpcodeMap} {v : Cell} {m : Mnemonic}
    (h : map.mnemonic? v = some m) : map.value m = v := by
  have := List.find?_some h
  simpa using this

/-- The lookup fails exactly when no mnemonic has the value. -/
theorem OpcodeMap.mnemonic?_eq_none {map : OpcodeMap} {v : Cell} :
    map.mnemonic? v = none ↔ ∀ m, map.value m ≠ v := by
  simp [OpcodeMap.mnemonic?]

/-- An injective map gives two mnemonics two values. -/
theorem OpcodeMap.value_inj {map : OpcodeMap} (h : map.injective = true) {m n : Mnemonic}
    (he : map.value m = map.value n) : m = n :=
  List.inj_on_of_nodup_map (by simpa [OpcodeMap.injective] using h) (by simp) (by simp) he

theorem OpcodeMap.mnemonic?_value {map : OpcodeMap} (h : map.injective = true) (m : Mnemonic) :
    map.mnemonic? (map.value m) = some m := by
  cases hm : map.mnemonic? (map.value m) with
  | none => exact absurd rfl (OpcodeMap.mnemonic?_eq_none.1 hm m)
  | some n => rw [OpcodeMap.value_inj h (OpcodeMap.value_of_mnemonic? hm)]

theorem OpcodeMap.reference_injective : OpcodeMap.reference.injective = true := by decide

@[simp] theorem decodeOperand_natCast (a : Address) : decodeOperand (a : Cell) = some a := by
  simp [decodeOperand]

theorem decodeOperand_eq_none {c : Cell} : decodeOperand c = none ↔ c < 0 := by
  simp [decodeOperand]

theorem decodeOperand_eq_some {c : Cell} {a : Address} :
    decodeOperand c = some a ↔ c = (a : Cell) := by
  unfold decodeOperand
  dsimp only [Cell, Address] at *
  split
  · constructor
    · intro h; cases h
    · intro h; omega
  · constructor
    · intro h; cases h; omega
    · intro h; subst h; simp

theorem decodeOpcode_eq_none {map : OpcodeMap} {v : Cell} :
    decodeOpcode map v = none ↔ ∀ m, map.value m ≠ v := by
  rw [← OpcodeMap.mnemonic?_eq_none, decodeOpcode]
  cases map.mnemonic? v <;> simp

theorem decodeOpcode_value {map : OpcodeMap} (h : map.injective = true) (m : Mnemonic) :
    decodeOpcode map (map.value m) = some m.form := by
  rw [decodeOpcode, OpcodeMap.mnemonic?_value h]

end Sys2Proof
end

