-- ==== Sys2Proof/Laws/Operands.lean ====
section
/-! SUPPORT. One lemma per operand form and way it can end: everything each shared form of an instruction can do. -/

namespace Sys2Proof.Machine

@[simp] theorem State.finish_ok (s t : State) : s.finish (.ok t) = .next t.returnContinue := rfl

@[simp] theorem State.finish_error (s : State) (k : Fault) :
    s.finish (.error k) = .next (s.takeFault k) := rfl

/-- A handler always answers a next state: the state it made, or the fault taken. -/
theorem State.finish_cases {s t : State} {x : Except Fault State} (h : s.finish x = .next t) :
    (∃ u, x = .ok u ∧ t = u.returnContinue) ∨ ∃ k, x = .error k ∧ t = s.takeFault k := by
  cases x with
  | ok u => cases h; exact .inl ⟨u, rfl, rfl⟩
  | error k => cases h; exact .inr ⟨k, rfl, rfl⟩

theorem State.accUnary_ok {s : State} {f : State → Except Fault Cell} {v : Cell}
    (h : f (s.advance 1) = .ok v) :
    s.accUnary f = .next ((s.advance 1).setAcc v).returnContinue := by
  simp [State.accUnary, h]

theorem State.accUnary_error {s : State} {f : State → Except Fault Cell} {k : Fault}
    (h : f (s.advance 1) = .error k) : s.accUnary f = .next ((s.advance 1).takeFault k) := by
  simp [State.accUnary, h]

/-- All a format `Z` instruction on the accumulator can do. -/
theorem State.accUnary_cases {s t : State} {f : State → Except Fault Cell}
    (h : s.accUnary f = .next t) :
    (∃ v, f (s.advance 1) = .ok v ∧ t = ((s.advance 1).setAcc v).returnContinue) ∨
      ∃ k, f (s.advance 1) = .error k ∧ t = (s.advance 1).takeFault k := by
  cases hf : f (s.advance 1) with
  | ok v => rw [State.accUnary_ok hf] at h; cases h; exact .inl ⟨v, rfl, rfl⟩
  | error k => rw [State.accUnary_error hf] at h; cases h; exact .inr ⟨k, rfl, rfl⟩

theorem State.accFromCell_ok {s : State} {a : Address} {f : State → Cell → Except Fault Cell}
    {d v : Cell} (hd : s.read a = .ok d) (hf : f (s.advance 2) d = .ok v) :
    s.accFromCell a f = .next ((s.advance 2).setAcc v).returnContinue := by
  simp [State.accFromCell, hd, hf]

/-- The access faults: the fault is the Bus's, whatever `f` would have made of the cell. -/
theorem State.accFromCell_read_error {s : State} {a : Address}
    {f : State → Cell → Except Fault Cell} {k : Fault} (hd : s.read a = .error k) :
    s.accFromCell a f = .next ((s.advance 2).takeFault k) := by
  simp [State.accFromCell, hd]

theorem State.accFromCell_error {s : State} {a : Address} {f : State → Cell → Except Fault Cell}
    {d : Cell} {k : Fault} (hd : s.read a = .ok d) (hf : f (s.advance 2) d = .error k) :
    s.accFromCell a f = .next ((s.advance 2).takeFault k) := by
  simp [State.accFromCell, hd, hf]

/-- All a format `A` instruction that reads a data cell can do. -/
theorem State.accFromCell_cases {s t : State} {a : Address}
    {f : State → Cell → Except Fault Cell} (h : s.accFromCell a f = .next t) :
    (∃ d v, s.read a = .ok d ∧ f (s.advance 2) d = .ok v ∧
        t = ((s.advance 2).setAcc v).returnContinue) ∨
      ∃ k, (s.read a = .error k ∨ ∃ d, s.read a = .ok d ∧ f (s.advance 2) d = .error k) ∧
        t = (s.advance 2).takeFault k := by
  cases hd : s.read a with
  | error k =>
    rw [State.accFromCell_read_error hd] at h; cases h; exact .inr ⟨k, .inl rfl, rfl⟩
  | ok d =>
    cases hf : f (s.advance 2) d with
    | ok v => rw [State.accFromCell_ok hd hf] at h; cases h; exact .inl ⟨d, v, rfl, hf, rfl⟩
    | error k =>
      rw [State.accFromCell_error hd hf] at h
      cases h
      exact .inr ⟨k, .inr ⟨d, rfl, hf⟩, rfl⟩

theorem State.write_advance (s : State) (n : Nat) (a : Address) (v : Cell) :
    (s.advance n).write a v = (s.write a v).map fun t => t.advance n := by
  cases hr : s.read a with
  | ok w =>
    obtain ⟨d, off, r, h1, h2, h3, -⟩ := State.read_eq_ok hr
    rw [State.write_of_route h1 h2 h3,
      State.write_of_route (s := s.advance n) ((State.route_congr rfl a).trans h1) h2 h3]
    rfl
  | error k =>
    rw [State.write_eq_error v hr, State.write_eq_error v ((State.read_advance s n a).trans hr)]
    rfl

theorem State.accToCell_ok {s t : State} {a : Address} (h : s.write a s.acc = .ok t) :
    s.accToCell a = .next (t.advance 2).returnContinue := by
  simp [State.accToCell, State.write_advance, h, Except.map]

theorem State.accToCell_error {s : State} {a : Address} {k : Fault}
    (h : s.write a s.acc = .error k) : s.accToCell a = .next ((s.advance 2).takeFault k) := by
  simp [State.accToCell, State.write_advance, h, Except.map]

/-- All a store can do. -/
theorem State.accToCell_cases {s t : State} {a : Address} (h : s.accToCell a = .next t) :
    (∃ u, s.write a s.acc = .ok u ∧ t = (u.advance 2).returnContinue) ∨
      ∃ k, s.write a s.acc = .error k ∧ t = (s.advance 2).takeFault k := by
  cases hw : s.write a s.acc with
  | ok u => rw [State.accToCell_ok hw] at h; cases h; exact .inl ⟨u, rfl, rfl⟩
  | error k => rw [State.accToCell_error hw] at h; cases h; exact .inr ⟨k, rfl, rfl⟩

theorem State.jumpWhen_eq (s : State) (c : Bool) (a : Address) :
    s.jumpWhen c a =
      .next (if c then (s.advance 2).setIa a else s.advance 2).returnContinue := rfl

end Sys2Proof.Machine
end

