-- ==== Sys2Proof/Laws/Exec.lean ====
section
/-! SUPPORT. All that `exec` and `step` can do, said once: the inversion lemmas every invariant and frame proof starts from. -/

namespace Sys2Proof.Machine

/-! Each instruction as its operand form. -/

theorem exec_ld_form (a : Address) (s : State) :
    exec (.ld a) s = s.accFromCell a fun _ d => .ok d := rfl

theorem exec_st_form (a : Address) (s : State) :
    exec (.st a) s = s.accToCell a := rfl

theorem exec_add_form (a : Address) (s : State) :
    exec (.add a) s = s.accFromCell a fun t d => checkCell t.config (t.acc + d) := rfl

theorem exec_mul_form (a : Address) (s : State) :
    exec (.mul a) s = s.accFromCell a fun t d => checkCell t.config (t.acc * d) := rfl

theorem exec_div_form (a : Address) (s : State) :
    exec (.div a) s = s.accFromCell a fun t d =>
      if d = 0 then .error (.divideByZero a)
      else checkCell t.config (roundAway (Rat.divInt t.acc d)) := rfl

theorem exec_neg_form (s : State) :
    exec .neg s = s.accUnary fun t => checkCell t.config (0 - t.acc) := rfl

theorem exec_sqrt_form (s : State) :
    exec .sqrt s = s.accUnary fun t =>
      if t.acc < 0 then .error (.sqrtOfNegative t.acc)
      else checkCell t.config (sqrtUp t.acc) := rfl

theorem exec_eq_form (a : Address) (s : State) :
    exec (.eq a) s = s.accFromCell a fun t d => .ok (cellOf (decide (t.acc = d))) := rfl

theorem exec_gt_form (a : Address) (s : State) :
    exec (.gt a) s = s.accFromCell a fun t d => .ok (cellOf (decide (d < t.acc))) := rfl

theorem exec_not_form (s : State) :
    exec .not s = s.accUnary fun t => .ok (cellOf (decide (t.acc = falseCell))) := rfl

theorem exec_or_form (a : Address) (s : State) :
    exec (.or a) s = s.accFromCell a fun t d => .ok (cellOf (truthy t.acc || truthy d)) := rfl

theorem exec_and_form (a : Address) (s : State) :
    exec (.and a) s = s.accFromCell a fun t d => .ok (cellOf (truthy t.acc && truthy d)) := rfl

theorem cellOf_cases (c : Bool) : cellOf c = trueCell ∨ cellOf c = falseCell := by
  cases c <;> simp [cellOf]

/-- `checkCell` hands on an admitted value and nothing else. -/
theorem checkCell_eq_ok {cfg : Config} {v w : Cell} (h : checkCell cfg v = .ok w) :
    w = v ∧ cfg.admits v = true := by
  unfold checkCell at h
  split at h
  · cases h; exact ⟨rfl, ‹_›⟩
  · cases h

/-- `checkCell` raises only `CellOverflow` of a value that is not admitted. -/
theorem checkCell_eq_error {cfg : Config} {v : Cell} {k : Fault} (h : checkCell cfg v = .error k) :
    k = .cellOverflow v ∧ cfg.admits v = false := by
  cases hv : cfg.admits v with
  | true => simp [checkCell, hv] at h
  | false => simp [checkCell, hv] at h; exact ⟨h.symm, rfl⟩

theorem checkCell_of_admits {cfg : Config} {v : Cell} (h : cfg.admits v = true) :
    checkCell cfg v = .ok v := by simp [checkCell, h]

theorem checkCell_of_not_admits {cfg : Config} {v : Cell} (h : cfg.admits v = false) :
    checkCell cfg v = .error (.cellOverflow v) := by simp [checkCell, h]

/-- What a value written to `Acc` is: a result `checkCell` passed, a truth cell, or a cell read. -/
def AccValue (s : State) (v : Cell) : Prop :=
  s.config.admits v = true ∨ v = trueCell ∨ v = falseCell ∨ ∃ a, s.read a = .ok v

/-- The ways an instruction ends: `Halted`, a store, a write of `Acc`, a fault taken with only `IA`
advanced, a jump, or a `Jif` that falls through. -/
theorem exec_cases {i : Instr} {s t : State} (h : exec i s = .next t) :
    (i = .halt ∧ t = (s.advance 1).returnHalted) ∨
    (∃ a u, i = .st a ∧ s.write a s.acc = .ok u ∧ t = (u.advance 2).returnContinue) ∨
    (∃ v, i.mnemonic ∉ [.halt, .st, .jmp, .jif] ∧ AccValue s v ∧
      t = ((s.advance i.length).setAcc v).returnContinue) ∨
    (∃ k, t = (s.advance i.length).takeFault k) ∨
    (∃ a, (i = .jmp a ∨ i = .jif a ∧ s.acc ≠ 0) ∧
      t = ((s.advance 2).setIa a).returnContinue) ∨
    ∃ a, i = .jif a ∧ s.acc = 0 ∧ t = (s.advance 2).returnContinue := by
  have cell : ∀ {j : Instr} {a : Address} {f : State → Cell → Except Fault Cell},
      s.accFromCell a f = .next t → j.length = 2 →
      j.mnemonic ∉ [Mnemonic.halt, .st, .jmp, .jif] →
      (∀ d v, s.read a = .ok d → f (s.advance 2) d = .ok v → AccValue s v) →
      (∃ v, j.mnemonic ∉ [Mnemonic.halt, .st, .jmp, .jif] ∧ AccValue s v ∧
        t = ((s.advance j.length).setAcc v).returnContinue) ∨
      ∃ k, t = (s.advance j.length).takeFault k := by
    intro j a f h hl hm hf
    rw [hl]
    rcases State.accFromCell_cases h with ⟨d, v, h1, h2, h3⟩ | ⟨k, -, h2⟩
    · exact .inl ⟨v, hm, hf d v h1 h2, h3⟩
    · exact .inr ⟨k, h2⟩
  have unary : ∀ {j : Instr} {f : State → Except Fault Cell},
      s.accUnary f = .next t → j.length = 1 →
      j.mnemonic ∉ [Mnemonic.halt, .st, .jmp, .jif] →
      (∀ v, f (s.advance 1) = .ok v → AccValue s v) →
      (∃ v, j.mnemonic ∉ [Mnemonic.halt, .st, .jmp, .jif] ∧ AccValue s v ∧
        t = ((s.advance j.length).setAcc v).returnContinue) ∨
      ∃ k, t = (s.advance j.length).takeFault k := by
    intro j f h hl hm hf
    rw [hl]
    rcases State.accUnary_cases h with ⟨v, h1, h3⟩ | ⟨k, -, h2⟩
    · exact .inl ⟨v, hm, hf v h1, h3⟩
    · exact .inr ⟨k, h2⟩
  have truth : ∀ c v, (Except.ok (cellOf c) : Except Fault Cell) = .ok v → AccValue s v := by
    intro c v h
    cases h
    rcases cellOf_cases c with h | h <;> simp [AccValue, h]
  have checked : ∀ w v, checkCell s.config w = .ok v → AccValue s v := by
    intro w v h
    obtain ⟨rfl, h⟩ := checkCell_eq_ok h
    exact .inl h
  cases i with
  | halt => cases h; simp
  | st a =>
    rcases State.accToCell_cases h with ⟨u, h1, h2⟩ | ⟨k, -, h2⟩
    · exact .inr (.inl ⟨a, u, rfl, h1, h2⟩)
    · exact .inr (.inr (.inr (.inl ⟨k, h2⟩)))
  | jmp a => cases h; exact .inr (.inr (.inr (.inr (.inl ⟨a, .inl rfl, rfl⟩))))
  | jif a =>
    by_cases h0 : s.acc = 0
    · simp [exec, execJif, State.jumpWhen_eq, truthy, h0] at h
      exact .inr (.inr (.inr (.inr (.inr ⟨a, rfl, h0, h.symm⟩))))
    · simp [exec, execJif, State.jumpWhen_eq, truthy, h0] at h
      exact .inr (.inr (.inr (.inr (.inl ⟨a, .inr ⟨rfl, h0⟩, h.symm⟩))))
  | ld a =>
    rw [exec_ld_form] at h
    have := cell (j := .ld a) h rfl (by simp [Instr.mnemonic])
      (fun d v hd hv => by cases hv; exact .inr (.inr (.inr ⟨a, hd⟩)))
    exact .inr (.inr (this.imp_right .inl))
  | add a =>
    rw [exec_add_form] at h
    have := cell (j := .add a) h rfl (by simp [Instr.mnemonic]) (fun d v _ hv => checked _ v hv)
    exact .inr (.inr (this.imp_right .inl))
  | mul a =>
    rw [exec_mul_form] at h
    have := cell (j := .mul a) h rfl (by simp [Instr.mnemonic]) (fun d v _ hv => checked _ v hv)
    exact .inr (.inr (this.imp_right .inl))
  | div a =>
    rw [exec_div_form] at h
    have := cell (j := .div a) h rfl (by simp [Instr.mnemonic])
      (fun d v _ hv => by
        split at hv
        · cases hv
        · exact checked _ v hv)
    exact .inr (.inr (this.imp_right .inl))
  | eq a =>
    rw [exec_eq_form] at h
    have := cell (j := .eq a) h rfl (by simp [Instr.mnemonic]) (fun d v _ hv => truth _ v hv)
    exact .inr (.inr (this.imp_right .inl))
  | gt a =>
    rw [exec_gt_form] at h
    have := cell (j := .gt a) h rfl (by simp [Instr.mnemonic]) (fun d v _ hv => truth _ v hv)
    exact .inr (.inr (this.imp_right .inl))
  | or a =>
    rw [exec_or_form] at h
    have := cell (j := .or a) h rfl (by simp [Instr.mnemonic]) (fun d v _ hv => truth _ v hv)
    exact .inr (.inr (this.imp_right .inl))
  | and a =>
    rw [exec_and_form] at h
    have := cell (j := .and a) h rfl (by simp [Instr.mnemonic]) (fun d v _ hv => truth _ v hv)
    exact .inr (.inr (this.imp_right .inl))
  | neg =>
    rw [exec_neg_form] at h
    have := unary (j := .neg) h rfl (by simp [Instr.mnemonic]) (fun v hv => checked _ v hv)
    exact .inr (.inr (this.imp_right .inl))
  | sqrt =>
    rw [exec_sqrt_form] at h
    have := unary (j := .sqrt) h rfl (by simp [Instr.mnemonic])
      (fun v hv => by
        split at hv
        · cases hv
        · exact checked _ v hv)
    exact .inr (.inr (this.imp_right .inl))
  | not =>
    rw [exec_not_form] at h
    have := unary (j := .not) h rfl (by simp [Instr.mnemonic]) (fun v hv => truth _ v hv)
    exact .inr (.inr (this.imp_right .inl))

/-- All a step that answers a next state can do: take a fault of stages 1 to 3, or execute the
fetched instruction. There was no recorded fault. -/
theorem step_cases {s t : State} (h : step s = .next t) :
    s.fault = none ∧
      ((∃ k, s.fetch = .error k ∧ t = s.takeFault k) ∨
        ∃ i, s.fetch = .ok i ∧ exec i s = .next t) := by
  simp only [step] at h
  split at h
  · cases h
  · refine ⟨‹_›, ?_⟩
    split at h
    · cases h; exact .inl ⟨_, ‹_›, rfl⟩
    · exact .inr ⟨_, ‹_›, h⟩

/-- With no recorded fault and an instruction fetched, the step is its execution. -/
theorem step_of_fetch_ok {s : State} {i : Instr} (h0 : s.fault = none) (h : s.fetch = .ok i) :
    step s = exec i s := by simp [step, h0, h]

theorem step_of_fetch_error {s : State} {k : Fault} (h0 : s.fault = none)
    (h : s.fetch = .error k) : step s = .next (s.takeFault k) := by simp [step, h0, h]

theorem step_of_fault {s : State} {k : Fault} (h : s.fault = some k) : step s = .fault k := by
  simp [step, h]

end Sys2Proof.Machine
end

