-- ==== Sys2Proof/Laws/PerInstr.lean ====
section
/-! SUPPORT. Per-instruction laws about the instruction as syntax. Family EncodeShape: the encoding under every `OPCODE_MAP` has the instruction's length, begins with its opcode, and its further cells are the operand, none negative (30_encoding.md R62, R66). -/

namespace Sys2Proof.Laws.EncodeShape

/-- The shape of an instruction's encoding (R62, R68). -/
def Statement (i : Instr) : Prop :=
  ∀ map : OpcodeMap,
    (encode map i).length = i.length ∧
      (encode map i).head? = some (map.value i.mnemonic) ∧
      (encode map i).tail = i.operand?.toList.map (fun a => (a : Cell)) ∧
      ∀ c ∈ (encode map i).tail, 0 ≤ c

theorem halt : Statement .halt := fun map => by simp [encode, Instr.operand?, Instr.length, Instr.mnemonic, Mnemonic.arity, Mnemonic.form]

theorem neg : Statement .neg := fun map => by simp [encode, Instr.operand?, Instr.length, Instr.mnemonic, Mnemonic.arity, Mnemonic.form]

theorem sqrt : Statement .sqrt := fun map => by simp [encode, Instr.operand?, Instr.length, Instr.mnemonic, Mnemonic.arity, Mnemonic.form]

theorem not : Statement .not := fun map => by simp [encode, Instr.operand?, Instr.length, Instr.mnemonic, Mnemonic.arity, Mnemonic.form]

theorem st (a : Address) : Statement (.st a) := fun map => by simp [encode, Instr.operand?, Instr.length, Instr.mnemonic, Mnemonic.arity, Mnemonic.form]

theorem ld (a : Address) : Statement (.ld a) := fun map => by simp [encode, Instr.operand?, Instr.length, Instr.mnemonic, Mnemonic.arity, Mnemonic.form]

theorem add (a : Address) : Statement (.add a) := fun map => by simp [encode, Instr.operand?, Instr.length, Instr.mnemonic, Mnemonic.arity, Mnemonic.form]

theorem mul (a : Address) : Statement (.mul a) := fun map => by simp [encode, Instr.operand?, Instr.length, Instr.mnemonic, Mnemonic.arity, Mnemonic.form]

theorem div (a : Address) : Statement (.div a) := fun map => by simp [encode, Instr.operand?, Instr.length, Instr.mnemonic, Mnemonic.arity, Mnemonic.form]

theorem eq (a : Address) : Statement (.eq a) := fun map => by simp [encode, Instr.operand?, Instr.length, Instr.mnemonic, Mnemonic.arity, Mnemonic.form]

theorem gt (a : Address) : Statement (.gt a) := fun map => by simp [encode, Instr.operand?, Instr.length, Instr.mnemonic, Mnemonic.arity, Mnemonic.form]

theorem or (a : Address) : Statement (.or a) := fun map => by simp [encode, Instr.operand?, Instr.length, Instr.mnemonic, Mnemonic.arity, Mnemonic.form]

theorem and (a : Address) : Statement (.and a) := fun map => by simp [encode, Instr.operand?, Instr.length, Instr.mnemonic, Mnemonic.arity, Mnemonic.form]

theorem jmp (a : Address) : Statement (.jmp a) := fun map => by simp [encode, Instr.operand?, Instr.length, Instr.mnemonic, Mnemonic.arity, Mnemonic.form]

theorem jif (a : Address) : Statement (.jif a) := fun map => by simp [encode, Instr.operand?, Instr.length, Instr.mnemonic, Mnemonic.arity, Mnemonic.form]

end Sys2Proof.Laws.EncodeShape
end

