-- ==== Sys2Proof/Tests/Slice0.lean ====
section
/-! SUPPORT. The model's own tests. Expected results are those of spec/95_test_vectors.md (section named at each group) or are worked out by hand from the rule named. Then, for each statement that has hypotheses, a witness that meets them. -/

namespace Sys2Proof.Tests

open Sys2Proof Sys2Proof.Machine

/-- The reference machine with given registers and listed cells. -/
def machine (ia : Address) (acc : Cell) (cells : Memory) : State :=
  { State.reset with ia := ia, acc := acc, devices := [{ capacity := 256, cells := cells }] }

/-- The same with `CELL_BOUNDS = (-128, 127)` (2.3). -/
def bounded (ia : Address) (acc : Cell) (cells : Memory) : State :=
  { machine ia acc cells with
    config := { Config.reference with cellBounds := some { lo := -128, hi := 127 } } }

/-- The two-device configuration of 2.7. -/
def twoDevices : List Attachment :=
  [{ range := { start := 0, length := 128 }, device := 0 },
   { range := { start := 128, length := 200 }, device := 1 }]

/-- The machine of 2.7, with a register and cells of the first device. -/
def twoDeviceMachine (acc : Cell) (cells : Memory) : State :=
  { State.reset with
    acc := acc
    config := { Config.reference with busTable := twoDevices }
    devices := [{ capacity := 128, cells := cells }, Ram.new 100] }

/-- The state a step ends in, where it ends in one. -/
def stateOf : Host.Outcome State Fault Refusal → Option State
  | .next t    => some t
  | .fault _   => none
  | .refused _ => none

/-- The registers and the outcome after one step. -/
def after (s : State) : Option (Address × Cell × StepOutcome) :=
  (stateOf (step s)).map fun t => (t.ia, t.acc, t.outcome)

/-- What a cell reads after one step. -/
def cellAfter (s : State) (a : Address) : Option (Except Fault Cell) :=
  (stateOf (step s)).map fun t => t.read a

/-- A tick that takes no time. -/
def tick : Tick Rat := { elapsed := 0, extra := 0, elapsed_nonneg := le_refl _, extra_nonneg := le_refl _ }

/-! ### Well-formedness: an ill-formed term for each check -/

theorem test_opcode_clash_refused : ({ OpcodeMap.reference with jif := 0 } : OpcodeMap).injective = false := by decide

theorem test_bounds_without_one_refused : ({ Config.reference with cellBounds := some { lo := 0, hi := 0 } } : Config).boundsValid =
    false := by decide

theorem test_bounds_without_zero_refused : ({ Config.reference with cellBounds := some { lo := 1, hi := 9 } } : Config).boundsValid =
    false := by decide

theorem test_overlapping_table_refused : busTableValid (twoDevices ++ [{ range := { start := 100, length := 50 }, device := 0 }]) =
    false := by decide

theorem test_negative_length_table_refused : busTableValid [{ range := { start := 400, length := -1 }, device := 0 }] = false := by decide

theorem test_zero_length_table_accepted : busTableValid (twoDevices ++ [{ range := { start := 400, length := 0 }, device := 0 }]) = true := by decide

theorem test_operand_outside_bounds_refused : (Instr.ld 128).wellFormed (bounded 0 0 []).config = false ∧
    (Instr.ld 127).wellFormed (bounded 0 0 []).config = true := by decide

theorem test_opcode_outside_bounds_refused : Instr.jif 0 |>.wellFormed { Config.reference with cellBounds := some { lo := 0, hi := 13 } } |>
    (· = false) := by decide

theorem test_unsorted_memory_refused : Memory.wf [(3, 1), (2, 1)] = false ∧ Memory.wf [(2, 0)] = false ∧ Memory.wf [(2, 1), (3, 1)] := by decide

theorem test_cell_beyond_capacity_refused : Ram.wf { capacity := 3, cells := [(3, 1)] } = false := by decide

/-! ### Decoding: each row's cells, written out from 30_encoding.md R63 and R64 -/

theorem test_decode_halt : decode OpcodeMap.reference [0, 99] = .ok (.halt, [99]) := by decide

theorem test_decode_st : decode OpcodeMap.reference [1, 10] = .ok (.st 10, []) := by decide

theorem test_decode_ld : decode OpcodeMap.reference [2, 20] = .ok (.ld 20, []) := by decide

theorem test_decode_add : decode OpcodeMap.reference [3, 6] = .ok (.add 6, []) := by decide

theorem test_decode_neg : decode OpcodeMap.reference [4, 99] = .ok (.neg, [99]) := by decide

theorem test_decode_mul : decode OpcodeMap.reference [5, 20] = .ok (.mul 20, []) := by decide

theorem test_decode_div : decode OpcodeMap.reference [6, 23] = .ok (.div 23, []) := by decide

theorem test_decode_sqrt : decode OpcodeMap.reference [7, 99] = .ok (.sqrt, [99]) := by decide

theorem test_decode_eq : decode OpcodeMap.reference [8, 21] = .ok (.eq 21, []) := by decide

theorem test_decode_gt : decode OpcodeMap.reference [9, 30] = .ok (.gt 30, []) := by decide

theorem test_decode_not : decode OpcodeMap.reference [10, 99] = .ok (.not, [99]) := by decide

theorem test_decode_or : decode OpcodeMap.reference [11, 31] = .ok (.or 31, []) := by decide

theorem test_decode_and : decode OpcodeMap.reference [12, 31] = .ok (.and 31, []) := by decide

theorem test_decode_jmp : decode OpcodeMap.reference [13, 4] = .ok (.jmp 4, []) := by decide

theorem test_decode_jif : decode OpcodeMap.reference [14, 40] = .ok (.jif 40, []) := by decide

theorem test_decode_rejects : decode OpcodeMap.reference [15] = .error (.unknownOpcode 15) ∧
    decode OpcodeMap.reference [-3] = .error (.unknownOpcode (-3)) ∧
    decode OpcodeMap.reference [2, -1] = .error (.negativeOperand (-1)) ∧
    decode OpcodeMap.reference [2] = .error .truncated := by decide

theorem test_table_word_decodes : decodeTableWord 8 14 = some (.jif 0) ∧ decodeTableWord 8 15 = none ∧
    decodeTableWord 128 (13 + 4 * 2 ^ 64) = some (.jmp 4) := by decide

theorem test_fetch_word_runs : after (State.reset.withFetchWord 8 4) = some (1, 0, .continued) ∧
    after (State.reset.withFetchWord 8 14) = some (2, 0, .continued) ∧
    after (State.reset.withFetchWord 8 0) = some (1, 0, .halted) := by decide

/-! ### The execution cycle (2.1) -/

theorem test_fetch_unmapped : after (machine 256 5 []) = some (256, 5, .faulted (.unmappedAddress 256)) := by decide

theorem test_operand_fetch_unmapped : after (machine 255 5 [(255, 2)]) = some (255, 5, .faulted (.unmappedAddress 256)) := by decide

theorem test_format_z_at_last_cell : after (machine 255 3 [(255, 4)]) = some (256, -3, .continued) := by decide

theorem test_negative_operand : after (machine 0 5 [(0, 2), (1, -1)]) = some (0, 5, .faulted (.unmappedAddress (-1))) := by decide

theorem test_negative_opcode : after (machine 0 5 [(0, -3)]) = some (0, 5, .faulted (.invalidInstruction 0 (-3))) := by decide

theorem test_first_unassigned_opcode : after (machine 0 5 [(0, 15)]) = some (0, 5, .faulted (.invalidInstruction 0 15)) := by decide

theorem test_fault_stops_the_machine : step { machine 0 5 [(0, 4)] with fault := some (.divideByZero 11) } =
    .fault (.divideByZero 11) := rfl

/-! ### Halt, store and load (2.2) -/

theorem test_halt : after (machine 6 3 []) = some (7, 3, .halted) := by decide

theorem test_st : after (machine 0 42 [(0, 1), (1, 10)]) = some (2, 42, .continued) ∧
    cellAfter (machine 0 42 [(0, 1), (1, 10)]) 10 = some (.ok 42) := by decide

theorem test_st_unmapped : after (machine 0 42 [(0, 1), (1, 300)]) = some (2, 42, .faulted (.unmappedAddress 300)) ∧
    cellAfter (machine 0 42 [(0, 1), (1, 300)]) 44 = some (.ok 0) := by decide

theorem test_ld : after (machine 0 7 [(0, 2), (1, 10), (10, -5)]) = some (2, -5, .continued) := by decide

theorem test_ld_own_opcode : after (machine 0 7 [(0, 2)]) = some (2, 2, .continued) := by decide

/-! ### Arithmetic (2.3) -/

theorem test_add_does_not_wrap : after (machine 0 (2 ^ 63 - 1) [(0, 3), (1, 6), (6, 1)]) =
    some (2, 2 ^ 63, .continued) := by decide

theorem test_add_overflow : after (bounded 0 127 [(0, 3), (1, 6), (6, 1)]) =
    some (2, 127, .faulted (.cellOverflow 128)) := by decide

theorem test_neg : after (machine 0 7 [(0, 4)]) = some (1, -7, .continued) := by decide

theorem test_neg_overflow : after (bounded 0 (-128) [(0, 4)]) = some (1, -128, .faulted (.cellOverflow 128)) := by decide

theorem test_mul : after (machine 0 (-3) [(0, 5), (1, 20), (20, 4)]) = some (2, -12, .continued) := by decide

theorem test_mul_negatives : after (machine 0 (-3) [(0, 5), (1, 20), (20, -4)]) = some (2, 12, .continued) := by decide

theorem test_div_rounds_away : after (machine 0 (-7) [(0, 6), (1, 23), (23, 2)]) = some (2, -4, .continued) ∧
    after (machine 0 1 [(0, 6), (1, 23), (23, -1000)]) = some (2, -1, .continued) ∧
    after (machine 0 6 [(0, 6), (1, 23), (23, 3)]) = some (2, 2, .continued) := by decide

theorem test_div_by_zero : after (machine 0 0 [(0, 6), (1, 23)]) = some (2, 0, .faulted (.divideByZero 23)) := by decide

theorem test_sqrt : after (machine 0 17 [(0, 7)]) = some (1, 5, .continued) ∧
    after (machine 0 16 [(0, 7)]) = some (1, 4, .continued) ∧
    after (machine 0 2 [(0, 7)]) = some (1, 2, .continued) := by decide

theorem test_sqrt_negative : after (machine 0 (-1) [(0, 7)]) = some (1, -1, .faulted (.sqrtOfNegative (-1))) := by decide

/-! ### Comparison and logic (2.5) -/

theorem test_eq : after (machine 0 4 [(0, 8), (1, 21), (21, 4)]) = some (2, 1, .continued) := by decide

theorem test_eq_differs : after (machine 0 (-1) [(0, 8), (1, 21), (21, 1)]) = some (2, 0, .continued) := by decide

theorem test_gt_signed : after (machine 0 0 [(0, 9), (1, 30), (30, -1)]) = some (2, 1, .continued) := by decide

theorem test_gt_strict : after (machine 0 3 [(0, 9), (1, 30), (30, 3)]) = some (2, 0, .continued) := by decide

theorem test_not : after (machine 0 0 [(0, 10)]) = some (1, 1, .continued) := by decide

theorem test_not_of_negative : after (machine 0 (-5) [(0, 10)]) = some (1, 0, .continued) := by decide

theorem test_or : after (machine 0 0 [(0, 11), (1, 31), (31, -3)]) = some (2, 1, .continued) := by decide

theorem test_or_reads_always : after (machine 0 1 [(0, 11), (1, 400)]) = some (2, 1, .faulted (.unmappedAddress 400)) := by decide

theorem test_and : after (machine 0 2 [(0, 12), (1, 31), (31, 4)]) = some (2, 1, .continued) := by decide

theorem test_and_reads_always : after (machine 0 0 [(0, 12), (1, 400)]) = some (2, 0, .faulted (.unmappedAddress 400)) := by decide

/-! ### Jumps (2.6) -/

theorem test_jmp : after (machine 0 3 [(0, 13), (1, 4)]) = some (4, 3, .continued) := by decide

theorem test_jmp_unmapped_target : after (machine 0 3 [(0, 13), (1, 1000)]) = some (1000, 3, .continued) := by decide

theorem test_jif_taken : after (machine 0 (-1) [(0, 14), (1, 40)]) = some (40, -1, .continued) := by decide

theorem test_jif_falls_through : after (machine 12 0 [(12, 14)]) = some (14, 0, .continued) := by decide

/-! ### The Bus (2.7), the host's operations (2.8) and the run loop (E10) -/

theorem test_two_device_reads : (twoDeviceMachine 0 []).read 5 = .ok 0 ∧ (twoDeviceMachine 0 []).read 130 = .ok 0 ∧
    (twoDeviceMachine 0 []).read 250 = .error (.outOfRange 122) ∧
    (twoDeviceMachine 0 []).read 328 = .error (.unmappedAddress 328) := by decide

theorem test_attach : (twoDeviceMachine 0 []).attach { range := { start := 100, length := 50 }, device := 0 } =
      .error (.configError .overlap) ∧
    (twoDeviceMachine 0 []).attach { range := { start := 400, length := -1 }, device := 0 } =
      .error (.configError .negativeLength) := by decide

theorem test_construct_two_devices : construct [128, 100] twoDevices OpcodeMap.reference none = .ok (twoDeviceMachine 0 []) := by decide

theorem test_load_program_too_large : ({ State.reset with devices := [Ram.new 2] } : State).loadProgram
    [.raw 1, .raw 2, .raw 3] = .error (.programTooLarge 3) := rfl

theorem test_load_program_keeps_registers : ((machine 5 9 [(0, 3)]).loadProgram [.symbol .halt]) = .ok (machine 5 9 []) := by decide

theorem test_host_write_unmapped : State.reset.hostWrite 256 (.raw 1) = .error (.accessFault (.unmappedAddress 256)) := by decide

theorem test_reset_clears : ({ machine 5 9 [(3, 1)] with fault := some (.divideByZero 11) } : State).hostReset =
    State.reset := by decide

theorem test_run_keeps_fault : (run none [tick] { machine 0 5 [] with fault := some (.divideByZero 11) }).result =
    .faulted (.divideByZero 11) := rfl

theorem test_bad_frequency : (Frequency.finite (0 : Rat)).period? = none := by decide

theorem test_deadline_miss_is_diagnosed : ({ elapsed := 5, extra := 0, elapsed_nonneg := by norm_num, extra_nonneg := le_refl _ } : Tick Rat).diagnostics (some 4) =
    [{ elapsed := 5, rate := 10 ^ 9 / 5 }] := by
  norm_num [Tick.diagnostics]

theorem test_assembler : (parseProgram "[Ld 5, Add 6, St 7, Halt]".toList).map
    (fun items => (assemble items).map (HostValue.cell OpcodeMap.reference)) =
    some [2, 5, 3, 6, 1, 7, 0] := by decide

theorem test_assembler_case_sensitive : parseProgram "[ld 5]".toList = none := by decide

/-- Entry 12: the list of no items is a program; an item is missing after a comma. -/
theorem test_assembler_empty : parseProgram "[]".toList = some [] ∧ parseProgram "[Halt,]".toList = none := by decide

/-- R137: a frequency is any finite number above 0, an irrational one too, and the period is exact. -/
theorem test_irrational_frequency : (Frequency.finite (Real.sqrt 2)).period? = some (10 ^ 9 / Real.sqrt 2) := by
  simp [Frequency.period?]

/-! ### Witnesses: the hypotheses of each statement can be met, clause by clause -/

theorem witness_DecodeOfEncode : OpcodeMap.reference.injective = true := by decide

theorem witness_EncodeOfDecode : decode OpcodeMap.reference [13, 4, 255] = .ok (.jmp 4, [255]) := by decide

theorem witness_IllegalOpcodeFaults : (machine 0 5 [(0, 15)]).fault = none ∧ (machine 0 5 [(0, 15)]).read 0 = .ok 15 ∧
    ∀ m, OpcodeMap.reference.value m ≠ 15 := by
  refine ⟨rfl, by decide, OpcodeMap.mnemonic?_eq_none.1 (by decide)⟩

theorem witness_StepRunsDecodedInstruction : (machine 255 3 [(255, 4)]).fault = none ∧ (machine 255 3 [(255, 4)]).read 255 = .ok 4 ∧
    decode OpcodeMap.reference [4] = .ok (.neg, []) ∧
    (machine 254 3 [(254, 3), (255, 6)]).read 254 = .ok 3 ∧
    (machine 254 3 [(254, 3), (255, 6)]).read 255 = .ok 6 ∧
    decode OpcodeMap.reference [3, 6] = .ok (.add 6, []) := by decide

theorem witness_EarlyFaultsInOrder : (machine 256 0 []).read 256 = .error (.unmappedAddress 256) ∧
    (machine 0 0 [(0, 15)]).read 0 = .ok 15 ∧
    (machine 255 0 [(255, 2)]).read 255 = .ok (OpcodeMap.reference.value .ld) ∧
    (machine 255 0 [(255, 2)]).read 256 = .error (.unmappedAddress 256) ∧
    (machine 0 0 [(0, 2), (1, -1)]).read 0 = .ok (OpcodeMap.reference.value .ld) ∧
    (machine 0 0 [(0, 2), (1, -1)]).read 1 = .ok (-1) ∧ Mnemonic.ld.arity = 1 := by decide

theorem witness_StepKeepsInvariant : (machine 0 3 [(0, 1), (1, 10)]).wf = true ∧ (bounded 0 127 [(0, 3), (1, 6), (6, 1)]).wf = true ∧
    ∃ t, step (machine 0 3 [(0, 1), (1, 10)]) = .next t := ⟨by decide, by decide, _, rfl⟩

theorem witness_ConfigurationNeverChanges : (∃ t, step State.reset = .next t) ∧
    (∃ t, State.reset.loadProgram [.symbol .jmp, .raw 0] = .ok t) ∧
    ∃ t, State.reset.hostWrite 255 (.raw (-1)) = .ok t := ⟨⟨_, rfl⟩, ⟨_, rfl⟩, _, rfl⟩

theorem witness_StExecutes : (machine 0 42 []).memoryWf = true ∧ (machine 0 42 []).read 255 = .ok 0 ∧
    (machine 0 42 []).route 254 ≠ (machine 0 42 []).route 255 ∧
    (machine 0 42 []).read 256 = .error (.unmappedAddress 256) := by decide

theorem witness_LdExecutes : (machine 0 42 [(255, -5)]).read 255 = .ok (-5) ∧
    (machine 0 42 [(255, -5)]).read 256 = .error (.unmappedAddress 256) := by decide

theorem witness_AddExecutes : (bounded 0 126 [(6, 1)]).read 6 = .ok 1 ∧ (bounded 0 126 [(6, 1)]).config.admits (126 + 1) = true ∧
    (bounded 0 127 [(6, 1)]).read 6 = .ok 1 ∧ (bounded 0 127 [(6, 1)]).config.admits (127 + 1) = false ∧
    (bounded 0 127 []).read 256 = .error (.unmappedAddress 256) := by decide

theorem witness_NegExecutes : (bounded 0 (-127) []).config.admits (- -127) = true ∧
    (bounded 0 (-128) []).config.admits (- -128) = false := by decide

theorem witness_MulExecutes : (bounded 0 64 [(6, -2)]).read 6 = .ok (-2) ∧ (bounded 0 64 [(6, -2)]).config.admits (64 * -2) = true ∧
    (bounded 0 64 [(6, 2)]).read 6 = .ok 2 ∧ (bounded 0 64 [(6, 2)]).config.admits (64 * 2) = false ∧
    (bounded 0 64 []).read 256 = .error (.unmappedAddress 256) := by decide

theorem witness_DivExecutes : (machine 0 (-7) [(23, 2)]).read 23 = .ok 2 ∧ (-4 : Int).sign = (-7 : Int).sign * (2 : Int).sign ∧
    |(-7 : Int)| ≤ |(-4 : Int)| * |(2 : Int)| ∧ |(-4 : Int)| * |(2 : Int)| < |(-7 : Int)| + |(2 : Int)| ∧
    (machine 0 (-7) [(23, 2)]).config.admits (-4) = true ∧ (machine 0 (-7) []).read 23 = .ok 0 ∧
    (machine 0 (-7) []).read 256 = .error (.unmappedAddress 256) := by decide

theorem witness_DivExecutes_overflow : (bounded 0 (-128) [(23, -1)]).read 23 = .ok (-1) ∧
    (128 : Int).sign = (-128 : Int).sign * (-1 : Int).sign ∧
    |(-128 : Int)| ≤ |(128 : Int)| * |(-1 : Int)| ∧
    |(128 : Int)| * |(-1 : Int)| < |(-128 : Int)| + |(-1 : Int)| ∧
    (bounded 0 (-128) [(23, -1)]).config.admits 128 = false := by decide

theorem witness_SqrtExecutes : (0 : Int) ≤ 10 ∧ (10 : Int) ≤ 4 * 4 ∧ (∀ k : Cell, 0 ≤ k → 10 ≤ k * k → 4 ≤ k) ∧
    (machine 0 10 []).config.admits 4 = true ∧ (-1 : Int) < 0 ∧
    ({ Config.reference with cellBounds := some { lo := 0, hi := 1 } } : Config).admits 4 = false := by
  refine ⟨by decide, by decide, fun k h0 h1 => ?_, by decide, by decide, by decide⟩
  dsimp only [Cell] at *
  nlinarith

theorem witness_EqExecutes : (machine 0 42 [(255, -5)]).read 255 = .ok (-5) ∧
    (machine 0 42 [(255, -5)]).read 256 = .error (.unmappedAddress 256) := by decide

theorem witness_GtExecutes : (machine 0 42 [(255, -5)]).read 255 = .ok (-5) ∧
    (machine 0 42 [(255, -5)]).read 256 = .error (.unmappedAddress 256) := by decide

theorem witness_OrExecutes : (machine 0 42 [(255, -5)]).read 255 = .ok (-5) ∧
    (machine 0 42 [(255, -5)]).read 256 = .error (.unmappedAddress 256) := by decide

theorem witness_AndExecutes : (machine 0 42 [(255, -5)]).read 255 = .ok (-5) ∧
    (machine 0 42 [(255, -5)]).read 256 = .error (.unmappedAddress 256) := by decide

theorem witness_StageFiveFaultsPrecise : ∃ t, exec (.div 23) (machine 0 7 []) = .next t ∧ t.outcome = .faulted (.divideByZero 23) := ⟨_, rfl, by decide⟩

theorem witness_FaultKindsByInstruction : (stateOf (exec (.ld 256) (machine 0 7 []))).map State.outcome = some (.faulted (.unmappedAddress 256)) ∧
    (stateOf (exec (.st 228) (twoDeviceMachine 7 []))).map State.outcome =
      some (.faulted (.outOfRange 100)) ∧
    (stateOf (exec (.div 23) (machine 0 7 []))).map State.outcome = some (.faulted (.divideByZero 23)) ∧
    (stateOf (exec .sqrt (machine 0 (-1) []))).map State.outcome =
      some (.faulted (.sqrtOfNegative (-1))) ∧
    (stateOf (exec .neg (bounded 0 (-128) []))).map State.outcome = some (.faulted (.cellOverflow 128)) := by decide

theorem witness_OutOfRangeNeedsLongRange : (∀ e ∈ State.reset.config.busTable, ∃ r, State.reset.devices[e.device]? = some r ∧
      e.range.length ≤ r.capacity) ∧
    (∃ t, step State.reset = .next t) ∧ State.reset.hasReferenceMap = true := by
  refine ⟨fun e he => ?_, ⟨_, rfl⟩, by decide⟩
  obtain rfl : e = { range := { start := 0, length := referenceCapacity }, device := 0 } := by
    simpa [State.reset, Config.reference] using he
  exact ⟨Ram.new referenceCapacity, rfl, by decide⟩

theorem witness_HaltExecutes : ∃ t, exec .halt State.reset = .next t ∧ t.outcome = .halted := ⟨_, rfl, rfl⟩

theorem witness_AccOnlyWrittenByItsWriters : ∃ t, exec (.jif 9) (machine 0 7 []) = .next t := ⟨_, rfl⟩

theorem witness_OnlyStWritesMemory : ∃ t, exec (.add 9) (machine 0 7 []) = .next t := ⟨_, rfl⟩

theorem witness_IaAfterContinue : ∃ t u v, exec (.jif 9) (machine 0 7 []) = .next t ∧ t.outcome = .continued ∧
    exec (.jmp 9) (machine 0 7 []) = .next u ∧ u.outcome = .continued ∧
    exec .neg (machine 0 7 []) = .next v ∧ v.outcome = .continued := ⟨_, _, _, rfl, rfl, rfl, rfl, rfl, rfl⟩

theorem witness_ComparisonsAreCanonical : ∃ t, exec (.gt 9) (machine 0 7 []) = .next t ∧ t.outcome = .continued := ⟨_, rfl, by decide⟩

theorem witness_RecordChangesOnlyOnFault : (∃ t, exec (.gt 9) (machine 0 7 []) = .next t ∧ t.outcome = .continued) ∧
    ∃ t, exec (.gt 256) (machine 0 7 []) = .next t ∧ t.outcome = .faulted (.unmappedAddress 256) := ⟨⟨_, rfl, by decide⟩, _, rfl, by decide⟩

theorem witness_StepReadsOnlyItsCells : (machine 0 7 [(0, 3), (1, 9), (9, 1)]).read 9 = (machine 0 7 [(0, 3), (1, 9), (9, 1), (10, 4)]).read 9 ∧
    (machine 0 7 [(0, 3), (1, 9), (9, 1)]).fetch = .ok (.add 9) ∧
    after (machine 0 7 [(0, 3), (1, 9), (9, 1)]) = some (2, 8, .continued) ∧
    after (machine 0 7 [(0, 3), (1, 9), (9, 1), (10, 4)]) = some (2, 8, .continued) := by decide

theorem witness_StoreToNextOpcodeIsFetched : (machine 0 4 [(0, 1), (1, 2), (2, 10)]).memoryWf = true ∧
    (machine 0 4 [(0, 1), (1, 2), (2, 10)]).fault = none ∧
    (machine 0 4 [(0, 1), (1, 2), (2, 10)]).read 2 = .ok 10 ∧
    decode OpcodeMap.reference [4] = .ok (.neg, []) := by decide

theorem witness_StoreToOwnOperandUsesOldOperand : (machine 0 99 [(0, 1), (1, 1)]).memoryWf = true ∧ (machine 0 99 [(0, 1), (1, 1)]).fault = none ∧
    (machine 0 99 [(0, 1), (1, 1)]).read 0 = .ok (OpcodeMap.reference.value .st) ∧
    (machine 0 99 [(0, 1), (1, 1)]).read 1 = .ok 1 := by decide

theorem witness_UnmappedTargetFaultsAtNextFetch : State.reset.fault = none ∧ busFind State.reset.config.busTable 256 = none := by decide

theorem witness_AttachChecksRanges : (-1 : Int) < 0 ∧ (0 : Nat) < (twoDeviceMachine 0 []).devices.length ∧
    ({ start := 0, length := 128 } : AddressRange).owns 127 = true ∧
    ({ start := 127, length := 1 } : AddressRange).owns 127 = true ∧
    ∀ f ∈ twoDevices, ∀ a, ¬ (f.range.owns a = true ∧
      ({ start := 328, length := 5 } : AddressRange).owns a = true) := by
  refine ⟨by decide, by decide, by decide, by decide, fun f hf a => ?_⟩
  simp only [AddressRange.owns, decide_eq_true_iff]
  rcases (by simpa [twoDevices] using hf : f = _ ∨ f = _) with rfl | rfl <;>
    (dsimp only [Address] at *; omega)

theorem witness_BusOrderDoesNotMatter : busTableValid twoDevices = true ∧ twoDevices.Perm twoDevices.reverse := ⟨by decide, (List.reverse_perm _).symm⟩

theorem witness_ReferenceMap : State.reset.hasReferenceMap = true ∧ (bounded 0 0 []).hasReferenceMap = true := by decide

theorem witness_BusRoutesAccess : busTableValid twoDevices = true ∧ (twoDeviceMachine 0 []).devices[1]? = some (Ram.new 100) ∧
    (227 : Nat) - 128 < 100 ∧ 100 ≤ (228 : Nat) - 128 ∧ busFind twoDevices 328 = none := by decide

theorem witness_RamBehaves : (Ram.new 100).wf = true ∧ (99 : Nat) < (Ram.new 100).capacity ∧ (Ram.new 100).capacity ≤ 100 := by decide

theorem witness_ResetValues : State.reset.isReference = true ∧ (machine 5 9 [(3, 1)]).isReference = true := by decide

theorem witness_ResetClears : (machine 5 9 [(3, 1)]).read 3 = .ok 1 ∧
    (machine 5 9 [(3, 1)]).deviceGet 0 3 = .ok 1 ∧
    (machine 5 9 [(3, 1)]).read 256 = .error (.unmappedAddress 256) := by decide

theorem witness_LoadProgramLoads : State.reset.ramCapacity = 256 ∧ (bounded 0 0 []).config.admits (HostValue.cell OpcodeMap.reference (.raw 128)) = false ∧
    State.reset.hasReferenceMap = true ∧ State.reset.memoryWf = true ∧ [HostValue.symbol .halt].length ≤ 256 ∧
    State.reset.config.admits (HostValue.cell OpcodeMap.reference (.symbol .halt)) = true := by decide

theorem witness_HostAccessGoesThroughBus : State.reset.memoryWf = true ∧ (∃ t, State.reset.hostWrite 255 (.raw 3) = .ok t) ∧
    State.reset.read 256 = .error (.unmappedAddress 256) ∧
    (bounded 0 0 []).config.admits (HostValue.cell OpcodeMap.reference (.raw 128)) = false := ⟨by decide, ⟨_, rfl⟩, by decide, by decide⟩

theorem witness_InspectShowsState : State.reset.devices[0]? = some (Ram.new 256) := by decide

theorem witness_FaultedMachineDoesNotRun : ({ State.reset with fault := some (.divideByZero 11) } : State).fault = some (.divideByZero 11) := by decide

theorem witness_BadFrequencyRefused : State.reset.fault = none ∧ (0 : Rat) ≤ 0 ∧ (0 : Rat) < 1000 := by
  refine ⟨rfl, le_refl _, by norm_num⟩

theorem witness_TimingNeverChangesResults : (Frequency.finite (1000 : ℝ)).period? = some (10 ^ 6) := by
  norm_num [Frequency.period?]

theorem witness_ThrottledRunIsNeverEarly : (Frequency.finite (500 : ℝ)).period? = some (2 * 10 ^ 6) := by
  norm_num [Frequency.period?]

theorem witness_RunEndsOnHaltOrFault : (run none [tick] State.reset).result = .halted ∧
    (run none [tick] (machine 0 0 [(0, 13)])).result = .running ∧
    (run none [tick] (machine 0 0 [(0, 15)])).result = .faulted (.invalidInstruction 0 15) := by decide

theorem witness_SafeRunNeverFaults : (machine 0 0 [(0, 13)]).fault = none ∧ (machine 0 0 [(0, 13)]).safeFor 2 = true ∧
    (machine 0 0 [(0, 15)]).safeFor 2 = false := by decide

end Sys2Proof.Tests
end

/-! O12: what every step and run-time host operation leaves of the machine's setup, the parameters and the capacities (R33, R34). -/

namespace Sys2Proof.Machine

/-- `t` has the configuration and the device capacities of `s` (R33, R34). -/
def State.SameSetup (s t : State) : Prop :=
  t.config = s.config ∧ t.devices.map Ram.capacity = s.devices.map Ram.capacity

theorem State.SameSetup.trans {s t u : State} (hst : s.SameSetup t) (htu : t.SameSetup u) :
    s.SameSetup u :=
  ⟨htu.1.trans hst.1, htu.2.trans hst.2⟩

/-- Registers, the record and the outcome are no part of the setup. -/
theorem State.SameSetup.of_eq {s t : State} (hc : t.config = s.config)
    (hd : t.devices = s.devices) : s.SameSetup t :=
  ⟨hc, congrArg _ hd⟩

theorem State.SameSetup.refl (s : State) : s.SameSetup s := .of_eq rfl rfl

/-- A device's new contents keep the setup when they have the old capacity. -/
theorem State.setDevice_sameSetup {s : State} {d : Nat} {r r' : Ram}
    (hr : s.devices[d]? = some r) (hcap : r'.capacity = r.capacity) :
    s.SameSetup (s.setDevice d r') := by
  obtain ⟨hd, rfl⟩ := List.getElem?_eq_some_iff.1 hr
  refine ⟨rfl, List.ext_getElem (by simp) fun j _ _ => ?_⟩
  by_cases hj : d = j
  · subst hj; simpa using hcap
  · simp [hj]

theorem State.write_sameSetup {s t : State} {a : Address} {v : Cell} (h : s.write a v = .ok t) :
    s.SameSetup t := by
  obtain ⟨d, off, r, -, hr, -, rfl⟩ := State.write_eq_ok h
  exact State.setDevice_sameSetup hr rfl

theorem State.hostReset_sameSetup (s : State) : s.SameSetup s.hostReset :=
  ⟨rfl, by simp [Function.comp_def, Ram.clear]⟩

/-- Only a store touches a device, and it does so by `write`. -/
theorem exec_sameSetup {i : Instr} {s t : State} (h : exec i s = .next t) : s.SameSetup t := by
  rcases exec_cases h with ⟨-, rfl⟩ | ⟨a, u, -, hw, rfl⟩ | ⟨v, -, -, rfl⟩ | ⟨k, rfl⟩ |
    ⟨a, -, rfl⟩ | ⟨a, -, -, rfl⟩
  case inr.inl => exact (State.write_sameSetup hw).trans (.of_eq rfl rfl)
  all_goals exact .of_eq rfl rfl

theorem step_sameSetup {s t : State} (h : step s = .next t) : s.SameSetup t := by
  obtain ⟨-, ⟨k, -, rfl⟩ | ⟨i, -, hi⟩⟩ := step_cases h
  · exact .of_eq rfl rfl
  · exact exec_sameSetup hi

theorem State.writeCells_sameSetup {cells : List Cell} {s t : State} {a : Address}
    (h : s.writeCells a cells = .ok t) : s.SameSetup t := by
  induction cells generalizing s a with
  | nil => cases h; exact .refl _
  | cons c rest ih =>
    simp only [State.writeCells] at h
    split at h
    · cases h
    · exact (State.write_sameSetup ‹_›).trans (ih h)

/-- All a successful load can do: the program fits, `CELL_BOUNDS` admits every cell, and the cells
are written from address 0 (R130). -/
theorem State.loadProgram_eq_ok {s t : State} {vs : List HostValue}
    (h : s.loadProgram vs = .ok t) :
    vs.length ≤ s.ramCapacity ∧
      (∀ v ∈ vs, s.config.admits (v.cell s.config.opcodes) = true) ∧
      s.writeCells 0 (vs.map (HostValue.cell s.config.opcodes)) = .ok t := by
  simp only [State.loadProgram] at h
  split at h
  · cases h
  · split at h
    · cases h
    · rename_i hlen _ hfind
      split at h
      · cases h
      · cases h
        exact ⟨not_lt.1 hlen, by simpa using hfind, ‹_›⟩

/-- All a successful host write can do: `CELL_BOUNDS` admits the cell, and the Bus writes it
(R131). -/
theorem State.hostWrite_eq_ok {s t : State} {a : Address} {v : HostValue}
    (h : s.hostWrite a v = .ok t) :
    s.config.admits (v.cell s.config.opcodes) = true ∧
      s.write a (v.cell s.config.opcodes) = .ok t := by
  simp only [State.hostWrite] at h
  split at h
  · cases h
  · rename_i c hcheck
    obtain ⟨rfl, hadm⟩ := checkCell_eq_ok hcheck
    split at h
    · cases h
    · cases h; exact ⟨hadm, ‹_›⟩

section Run
variable {K : Type} [Field K] [LinearOrder K] {P : State → Prop}

/-- What every step keeps, the loop keeps, whatever the period and the ticks. -/
theorem runLoop_keeps (hP : ∀ s t, step s = .next t → P s → P t) (period : Option K)
    (ticks : List (Tick K)) {s : State} (hs : P s) : P (runLoop period ticks s).state := by
  induction ticks generalizing s with
  | nil => exact hs
  | cons tick ticks ih =>
    simp only [runLoop]
    split
    · exact hs
    · exact hs
    · rename_i t hstep
      have ht : P t := hP s t hstep hs
      split
      · exact ih ht
      · exact ht
      · exact ht

/-- What every step keeps, a run keeps: one that is refused before its first step changes nothing,
any other is the loop. -/
theorem run_keeps (hP : ∀ s t, step s = .next t → P s → P t) (f : Option (Frequency K))
    (ticks : List (Tick K)) {s : State} (hs : P s) : P (run f ticks s).state := by
  simp only [run]
  split
  · exact hs
  · split
    · exact runLoop_keeps hP none ticks hs
    · split
      · exact hs
      · exact runLoop_keeps hP _ ticks hs

theorem run_sameSetup (f : Option (Frequency K)) (ticks : List (Tick K)) (s : State) :
    s.SameSetup (run f ticks s).state :=
  run_keeps (fun _ _ hstep hs => hs.trans (step_sameSetup hstep)) f ticks (.refl s)

end Run

/-- Settles O12: each operation reaches memory by `State.write` or by `Ram.clear` alone, and both
keep the setup. -/
theorem configurationNeverChanges : Obligations.ConfigurationNeverChanges := by
  intro K _ _ _ s t h
  change s.SameSetup t
  obtain hstep | ⟨vs, hload⟩ | ⟨a, v, hwrite⟩ | rfl | ⟨f, ticks, rfl⟩ := h
  · exact step_sameSetup hstep
  · obtain ⟨-, -, hcells⟩ := State.loadProgram_eq_ok hload
    exact State.writeCells_sameSetup hcells
  · obtain ⟨-, hw⟩ := State.hostWrite_eq_ok hwrite
    exact State.write_sameSetup hw
  · exact s.hostReset_sameSetup
  · exact run_sameSetup f ticks s

end Sys2Proof.Machine

/-! O45 to O47: who owns an address, what an access routed to a device answers, and what a RAM does (R43 to R47, R53). -/

namespace Sys2Proof

theorem AddressRange.owns_iff {r : AddressRange} {a : Address} :
    r.owns a = true ↔ r.start ≤ a ∧ (a : Int) < r.start + r.length := by
  simp [AddressRange.owns]

theorem AddressRange.overlaps_comm (r q : AddressRange) : r.overlaps q = q.overlaps r := by
  simp only [AddressRange.overlaps, max_comm, min_comm]

theorem AddressRange.overlaps_of_owns {r q : AddressRange} {a : Address}
    (hr : r.owns a = true) (hq : q.owns a = true) : r.overlaps q = true := by
  obtain ⟨hr₁, hr₂⟩ := AddressRange.owns_iff.1 hr
  obtain ⟨hq₁, hq₂⟩ := AddressRange.owns_iff.1 hq
  have hlow : max (r.start : Int) q.start ≤ a := max_le (Int.ofNat_le.2 hr₁) (Int.ofNat_le.2 hq₁)
  exact decide_eq_true (hlow.trans_lt (lt_min hr₂ hq₂))

theorem busTableValid_iff {table : List Attachment} :
    busTableValid table = true ↔ (∀ e ∈ table, 0 ≤ e.range.length) ∧
      table.Pairwise fun e f => e.range.overlaps f.range = false := by
  simp [busTableValid]

/-- In a valid table at most one entry owns an address (R45). -/
theorem busTableValid_owner_unique {table : List Attachment} {a : Address} {e f : Attachment}
    (hvalid : busTableValid table = true) (he : e ∈ table) (hf : f ∈ table)
    (hea : e.range.owns a = true) (hfa : f.range.owns a = true) : e = f := by
  obtain ⟨-, hdisj⟩ := busTableValid_iff.1 hvalid
  have hsymm : Std.Symm fun e f : Attachment => e.range.overlaps f.range = false :=
    ⟨fun e f h => (f.range.overlaps_comm e.range).trans h⟩
  by_contra hne
  have hapart : e.range.overlaps f.range = false := hdisj.forall he hf hne
  simp [AddressRange.overlaps_of_owns hea hfa] at hapart

/-- All a successful search can answer: an entry of the table that owns the address. -/
theorem busFind_eq_some {table : List Attachment} {a : Address} {e : Attachment}
    (h : busFind table a = some e) : e ∈ table ∧ e.range.owns a = true := by
  have howns := List.find?_some (p := fun f : Attachment => f.range.owns a) h
  exact ⟨List.mem_of_find?_eq_some h, howns⟩

/-- In a valid table the search finds the owner, wherever it stands (R46, R48). -/
theorem busFind_of_owns {table : List Attachment} {a : Address} {e : Attachment}
    (hvalid : busTableValid table = true) (he : e ∈ table) (hea : e.range.owns a = true) :
    busFind table a = some e := by
  cases hfind : busFind table a with
  | none => exact absurd hea (List.find?_eq_none.1 hfind e he)
  | some f =>
    obtain ⟨hf, hfa⟩ := busFind_eq_some hfind
    rw [busTableValid_owner_unique hvalid he hf hea hfa]

theorem busFind_eq_none {table : List Attachment} {a : Address}
    (h : ∀ e ∈ table, ¬ e.range.owns a = true) : busFind table a = none :=
  List.find?_eq_none.2 h

end Sys2Proof

namespace Sys2Proof.Machine

theorem State.route_of_owns {s : State} {a : Address} {e : Attachment}
    (hvalid : busTableValid s.config.busTable = true) (he : e ∈ s.config.busTable)
    (hea : e.range.owns a = true) : s.route a = .ok (e.device, a - e.range.start) := by
  simp [State.route, busFind_of_owns hvalid he hea]

/-- An address no range owns is unmapped for a read and for a write (R46, R47). -/
theorem State.access_of_unowned {s : State} {a : Address} (v : Cell)
    (h : ∀ e ∈ s.config.busTable, ¬ e.range.owns a = true) :
    s.read a = .error (.unmappedAddress a) ∧ s.write a v = .error (.unmappedAddress a) := by
  have hread : s.read a = .error (.unmappedAddress a) := by
    simp [State.read, State.route, busFind_eq_none h]
  exact ⟨hread, State.write_eq_error v hread⟩

/-- Past the device's capacity a read and a write are out of range (R43, R46, R47). -/
theorem State.access_of_route_past_capacity {s : State} {a : Address} {d off : Nat} {r : Ram}
    (v : Cell) (hroute : s.route a = .ok (d, off)) (hr : s.devices[d]? = some r)
    (hoff : r.capacity ≤ off) :
    s.read a = .error (.outOfRange off) ∧ s.write a v = .error (.outOfRange off) := by
  have hread : s.read a = .error (.outOfRange off) := by
    simp [State.read, hroute, State.deviceGet, hr, Ram.get, hoff.not_gt]
  exact ⟨hread, State.write_eq_error v hread⟩

/-- Settles O46: the search finds the one owner of the address, and its device answers at the local
offset. -/
theorem busRoutesAccess : Obligations.BusRoutesAccess := by
  intro s a v hvalid
  refine ⟨fun e r he hstart hend hr => ?_, fun hnone => ?_⟩
  · have hroute := State.route_of_owns hvalid he (AddressRange.owns_iff.2 ⟨hstart, hend⟩)
    exact ⟨fun hoff => ⟨State.read_of_route hroute hr hoff, State.write_of_route hroute hr hoff⟩,
      State.access_of_route_past_capacity v hroute hr⟩
  · exact State.access_of_unowned v fun e he hea => hnone e he (AddressRange.owns_iff.1 hea)

/-- The one entry of the reference table: the RAM over the addresses below 256 (R53). -/
def referenceAttachment : Attachment :=
  { range := { start := 0, length := referenceCapacity }, device := 0 }

theorem referenceAttachment_owns_iff {a : Address} :
    referenceAttachment.range.owns a = true ↔ a < 256 := by
  simp [AddressRange.owns_iff, referenceAttachment, referenceCapacity]

theorem State.hasReferenceMap_iff {s : State} :
    s.hasReferenceMap = true ↔
      s.config.busTable = [referenceAttachment] ∧ ∃ r : Ram, s.devices = [r] ∧ r.capacity = 256 := by
  simp only [State.hasReferenceMap, Bool.and_eq_true, decide_eq_true_eq, List.map_eq_singleton_iff]
  rfl

/-- Settles O45: the reference table's one entry owns exactly the addresses below 256, at offset 0 of
the RAM. -/
theorem referenceMap : Obligations.ReferenceMap := by
  intro s href a v
  obtain ⟨htable, r, hdev, hcap⟩ := State.hasReferenceMap_iff.1 href
  refine ⟨fun ha => ?_, fun ha => ?_⟩
  · have hvalid : busTableValid s.config.busTable = true := htable ▸ by decide
    have hroute : s.route a = .ok (0, a) :=
      State.route_of_owns hvalid (htable ▸ List.mem_singleton_self _)
        (referenceAttachment_owns_iff.2 ha)
    have hr : s.devices[0]? = some r := by simp [hdev]
    have hoff : a < r.capacity := hcap ▸ ha
    exact ⟨hroute, ⟨_, State.read_of_route hroute hr hoff⟩, _, State.write_of_route hroute hr hoff⟩
  · refine State.access_of_unowned v fun e he => ?_
    obtain rfl : e = referenceAttachment := List.mem_singleton.1 (htable ▸ he)
    exact mt referenceAttachment_owns_iff.1 ha.not_gt

theorem Ram.get_of_lt {r : Ram} {off : Nat} (h : off < r.capacity) :
    r.get off = .ok (r.cells.read off) := if_pos h

theorem Ram.get_of_le {r : Ram} {off : Nat} (h : r.capacity ≤ off) :
    r.get off = .error (.outOfRange off) := if_neg h.not_gt

theorem Ram.set_of_lt {r : Ram} {off : Nat} (v : Cell) (h : off < r.capacity) :
    r.set off v = .ok { r with cells := r.cells.write off v } := if_pos h

theorem Ram.set_of_le {r : Ram} {off : Nat} (v : Cell) (h : r.capacity ≤ off) :
    r.set off v = .error (.outOfRange off) := if_neg h.not_gt

/-- A `set` is read back by `get` (R43). -/
theorem Ram.get_set_same {r q : Ram} {off : Nat} {v : Cell} (hwf : r.wf = true)
    (h : r.set off v = .ok q) : q.get off = .ok v := by
  obtain ⟨hoff, rfl⟩ := Ram.set_eq_ok h
  obtain ⟨hcells, -⟩ := (Ram.wf_iff r).1 hwf
  obtain ⟨hsorted, -⟩ := (Memory.wf_iff r.cells).1 hcells
  calc Ram.get { r with cells := r.cells.write off v } off
      = .ok ((r.cells.write off v).read off) := Ram.get_of_lt hoff
    _ = .ok v := by rw [Memory.read_write_same _ _ _ hsorted]

/-- A `set` changes no other cell, whether the other offset has one or not (R43). -/
theorem Ram.get_set_other {r q : Ram} {off o : Nat} {v : Cell} (h : r.set off v = .ok q)
    (hne : o ≠ off) : q.get o = r.get o := by
  obtain ⟨-, rfl⟩ := Ram.set_eq_ok h
  simp only [Ram.get, Memory.read_write_other _ _ _ _ hne]

theorem Ram.len_set {r q : Ram} {off : Nat} {v : Cell} (h : r.set off v = .ok q) :
    q.len = r.len := by
  obtain ⟨-, rfl⟩ := Ram.set_eq_ok h
  rfl

theorem Ram.get_new {c off : Nat} (h : off < c) : (Ram.new c).get off = .ok 0 := Ram.get_of_lt h

theorem Ram.get_clear {r : Ram} {off : Nat} (h : off < r.capacity) : r.clear.get off = .ok 0 :=
  Ram.get_of_lt h

/-- Settles O47: below the capacity a `set` succeeds and is a write of one cell; from the capacity on
both operations refuse; `new` and `clear` list no cell. -/
theorem ramBehaves : Obligations.RamBehaves := by
  refine ⟨fun c off hoff => ⟨Ram.get_new hoff, rfl⟩, fun r off v hwf => ?_⟩
  refine ⟨fun hoff => ?_, fun hoff => ⟨Ram.get_of_le hoff, Ram.set_of_le v hoff⟩,
    Ram.get_clear, rfl⟩
  have hset := Ram.set_of_lt v hoff
  exact ⟨_, hset, Ram.get_set_same hwf hset, fun o hne => Ram.get_set_other hset hne,
    Ram.len_set hset, Ram.set_wf hset hwf⟩

end Sys2Proof.Machine

/-! O4: an opcode cell that selects no mnemonic, and which cells those are under the default map (R64, R70). -/

namespace Sys2Proof

/-- The default map numbers the mnemonics from 0 in the table's order (R64). -/
theorem OpcodeMap.reference_values :
    Mnemonic.all.map OpcodeMap.reference.value = (List.range 15).map Nat.cast := by decide

theorem OpcodeMap.exists_reference_value_iff {v : Cell} :
    (∃ m, OpcodeMap.reference.value m = v) ↔ 0 ≤ v ∧ v < 15 := by
  calc (∃ m, OpcodeMap.reference.value m = v)
      ↔ v ∈ Mnemonic.all.map OpcodeMap.reference.value := by simp
    _ ↔ ∃ n < 15, ((n : Nat) : Int) = v := by simp [OpcodeMap.reference_values]
    _ ↔ 0 ≤ v ∧ v < 15 := by
      constructor
      · rintro ⟨n, hn, rfl⟩
        dsimp only [Cell]
        omega
      · rintro ⟨hlow, hhigh⟩
        exact ⟨v.toNat, (Int.toNat_lt hlow).2 hhigh, Int.toNat_of_nonneg hlow⟩

/-- The default map gives the cells 0 to 14 to the mnemonics and leaves every other one illegal
(R64, R70). -/
theorem OpcodeMap.forall_reference_value_ne_iff {v : Cell} :
    (∀ m, OpcodeMap.reference.value m ≠ v) ↔ v < 0 ∨ 15 ≤ v := by
  rw [← not_exists, OpcodeMap.exists_reference_value_iff, not_and_or, not_le, not_lt]

end Sys2Proof

namespace Sys2Proof.Machine

/-- Stage 2 ends the fetch when the opcode cell selects no mnemonic; no operand cell is read
(R70, R76). -/
theorem State.fetch_of_illegalOpcode {s : State} {v : Cell} (hread : s.read s.ia = .ok v)
    (hv : ∀ m, s.config.opcodes.value m ≠ v) :
    s.fetch = .error (.invalidInstruction s.ia v) := by
  have hdecode : decodeOpcode s.config.opcodes v = none := decodeOpcode_eq_none.2 hv
  simp only [State.fetch, hread, hdecode]

/-- Settles O4: the fetch ends at the decode, so the step takes its fault in the state as it was; the
default map's values are the integers from 0 to 14. -/
theorem illegalOpcodeFaults : Obligations.IllegalOpcodeFaults := by
  refine ⟨fun s v hfault hread hv => ?_, fun v => OpcodeMap.forall_reference_value_ne_iff⟩
  exact step_of_fetch_error hfault (State.fetch_of_illegalOpcode hread hv)

end Sys2Proof.Machine

/-! O15: the load, and what every instruction that reads a data cell leaves when the access faults (R90, R83). -/

namespace Sys2Proof.Machine

/-- A format `A` instruction whose data cell cannot be read records the Bus's fault at the advanced
`IA` and changes nothing else, whatever it would have computed (R83). -/
theorem State.accFromCell_accessFault {s : State} {a : Address} {k : Fault}
    (f : State → Cell → Except Fault Cell) (hread : s.read a = .error k) :
    (k = .unmappedAddress a ∨ ∃ off, k = .outOfRange off) ∧
      s.accFromCell a f =
        .next { s with ia := s.ia + 2, fault := some k, outcome := .faulted k } :=
  ⟨State.read_error hread, State.accFromCell_read_error hread⟩

/-- Settles O15: the load computes nothing from the cell it reads, so it ends in the cell as `Acc` or
in the fault of the access. -/
theorem ldExecutes : Obligations.LdExecutes := by
  intro s a
  rw [exec_ld_form]
  refine ⟨rfl, fun d hread => ?_, fun k hread => ?_⟩
  · exact State.accFromCell_ok hread rfl
  · exact State.accFromCell_accessFault _ hread

end Sys2Proof.Machine

/-! O16 to O20: the arithmetic family, exact integers handed to `checkCell` (R91 to R98). -/

namespace Sys2Proof

/-- R14's definition of `roundAway` in one equation. -/
theorem roundAway_eq_sign_mul_ceil_abs (x : Rat) :
    roundAway x = (SignType.sign x : Int) * ⌈|x|⌉ := by
  rcases lt_trichotomy x 0 with hneg | rfl | hpos
  · rw [roundAway_of_neg hneg, sign_neg hneg, abs_of_neg hneg, SignType.coe_neg_one, neg_one_mul]
  · simp [roundAway_zero]
  · rw [roundAway_of_pos hpos, sign_pos hpos, abs_of_pos hpos, SignType.coe_one, one_mul]

theorem sign_intCast_div (n d : Int) :
    (SignType.sign ((n : Rat) / d) : Int) = n.sign * d.sign := by
  have hinv : SignType.sign (d : Rat)⁻¹ = SignType.sign (d : Rat) := by simp [sign_apply]
  rw [div_eq_mul_inv, sign_mul, hinv, sign_intCast, sign_intCast, SignType.coe_mul,
    ← Int.sign_eq_sign, ← Int.sign_eq_sign]

/-- The magnitude of a quotient rounded up: the multiple of `|d|` in the window of length `|d|` from
`|n|` on. -/
theorem ceil_abs_div_eq {n d q : Int} (hd : d ≠ 0) (hle : |n| ≤ |q| * |d|)
    (hlt : |q| * |d| < |n| + |d|) : ⌈|(n : Rat) / d|⌉ = |q| := by
  have hpos : (0 : Rat) < |(d : Rat)| := abs_pos.2 (by exact_mod_cast hd)
  rw [abs_div, Int.ceil_eq_iff, lt_div_iff₀ hpos, div_le_iff₀ hpos]
  constructor
  · have hlt' : |q| * |d| - |d| < |n| := by omega
    rw [sub_one_mul]
    exact_mod_cast hlt'
  · exact_mod_cast hle

/-- R92: sign and magnitude determine the quotient that `Div` writes. -/
theorem roundAway_divInt_eq {n d q : Int} (hd : d ≠ 0) (hsign : q.sign = n.sign * d.sign)
    (hle : |n| ≤ |q| * |d|) (hlt : |q| * |d| < |n| + |d|) : roundAway (Rat.divInt n d) = q := by
  calc roundAway (Rat.divInt n d)
      = (SignType.sign ((n : Rat) / d) : Int) * ⌈|(n : Rat) / d|⌉ := by
        rw [Rat.divInt_eq_div, roundAway_eq_sign_mul_ceil_abs]
    _ = q.sign * |q| := by rw [sign_intCast_div, ceil_abs_div_eq hd hle hlt, hsign]
    _ = q := Int.sign_mul_abs q

/-- R14: `sqrtUp` is the root's floor where that squares to `v`, and the next integer elsewhere. -/
theorem sqrtUp_isLeast {v : Int} (hv : 0 ≤ v) :
    IsLeast {r : Int | 0 ≤ r ∧ v ≤ r * r} (sqrtUp v) := by
  obtain ⟨n, rfl⟩ := Int.eq_ofNat_of_zero_le hv
  obtain ⟨hlow, hhigh⟩ := floorSqrt_spec _ n (lt_four_pow_log2 n)
  simp only [sqrtUp, Int.toNat_natCast]
  generalize floorSqrt (n.log2 + 1) n = r at hlow hhigh
  split
  next hexact =>
    refine ⟨⟨by omega, by exact_mod_cast hexact.ge⟩, fun k ⟨hk0, hk⟩ => ?_⟩
    have hsq : (r : Int) * r ≤ k * k := hk.trans' (by exact_mod_cast hlow)
    exact nonneg_le_nonneg_of_sq_le_sq hk0 hsq
  next hinexact =>
    refine ⟨⟨by omega, by exact_mod_cast hhigh.le⟩, fun k ⟨hk0, hk⟩ => ?_⟩
    have hsq : (r : Int) * r < k * k := hk.trans_lt' (by exact_mod_cast hlow.lt_of_ne hinexact)
    exact lt_of_mul_self_lt_mul_self₀ hk0 hsq

end Sys2Proof

namespace Sys2Proof.Machine

/-- A format `A` instruction that hands its result to `checkCell` writes it to `Acc`, or records
`CellOverflow` of it at the advanced `IA` (R91, R83). -/
theorem State.accFromCell_checkCell {s : State} {a : Address}
    {f : State → Cell → Except Fault Cell} {d v : Cell} (hread : s.read a = .ok d)
    (hf : f (s.advance 2) d = checkCell s.config v) :
    (s.config.admits v = true →
      s.accFromCell a f = .next { s with ia := s.ia + 2, acc := v, outcome := .continued }) ∧
    (s.config.admits v = false →
      s.accFromCell a f =
        .next { s with ia := s.ia + 2, fault := some (.cellOverflow v),
                       outcome := .faulted (.cellOverflow v) }) :=
  ⟨fun h => State.accFromCell_ok hread (hf.trans (checkCell_of_admits h)),
    fun h => State.accFromCell_error hread (hf.trans (checkCell_of_not_admits h))⟩

/-- All that an exact operation on `Acc` and a cell can do, as `Add` and `Mul` are (R94, R96). -/
theorem State.accFromCell_exact (s : State) (a : Address) (op : Cell → Cell → Cell) :
    (∀ d, s.read a = .ok d → s.config.admits (op s.acc d) = true →
      s.accFromCell a (fun t d => checkCell t.config (op t.acc d)) =
        .next { s with ia := s.ia + 2, acc := op s.acc d, outcome := .continued }) ∧
    (∀ d, s.read a = .ok d → s.config.admits (op s.acc d) = false →
      s.accFromCell a (fun t d => checkCell t.config (op t.acc d)) =
        .next { s with ia := s.ia + 2, fault := some (.cellOverflow (op s.acc d)),
                       outcome := .faulted (.cellOverflow (op s.acc d)) }) ∧
    ∀ k, s.read a = .error k →
      (k = .unmappedAddress a ∨ ∃ off, k = .outOfRange off) ∧
      s.accFromCell a (fun t d => checkCell t.config (op t.acc d)) =
        .next { s with ia := s.ia + 2, fault := some k, outcome := .faulted k } :=
  ⟨fun _ hread => (State.accFromCell_checkCell hread rfl).1,
    fun _ hread => (State.accFromCell_checkCell hread rfl).2,
    fun _ hread => State.accFromCell_accessFault _ hread⟩

/-- A format `Z` instruction that hands its result to `checkCell`, past its one cell (R91, R83). -/
theorem State.accUnary_checkCell {s : State} {f : State → Except Fault Cell} {v : Cell}
    (hf : f (s.advance 1) = checkCell s.config v) :
    (s.config.admits v = true →
      s.accUnary f = .next { s with ia := s.ia + 1, acc := v, outcome := .continued }) ∧
    (s.config.admits v = false →
      s.accUnary f =
        .next { s with ia := s.ia + 1, fault := some (.cellOverflow v),
                       outcome := .faulted (.cellOverflow v) }) :=
  ⟨fun h => State.accUnary_ok (hf.trans (checkCell_of_admits h)),
    fun h => State.accUnary_error (hf.trans (checkCell_of_not_admits h))⟩

/-- Settles O19: the divisor is tested first; `roundAway` of the quotient by a nonzero one is `q`,
which goes to `checkCell`. -/
theorem divExecutes : Obligations.DivExecutes := by
  intro s a
  rw [exec_div_form]
  refine ⟨rfl, fun d q hread hd hsign hle hlt => ?_, fun hread => ?_, fun k hread => ?_⟩
  · have hq : roundAway (Rat.divInt s.acc d) = q := roundAway_divInt_eq hd hsign hle hlt
    exact State.accFromCell_checkCell hread (by simp [hd, hq])
  · exact State.accFromCell_error hread rfl
  · exact State.accFromCell_accessFault _ hread

/-- Settles O20: the sign of `Acc` is tested first; the least root is unique, so `sqrtUp` of
an `Acc` that is not negative is `r`, which goes to `checkCell`. -/
theorem sqrtExecutes : Obligations.SqrtExecutes := by
  intro s
  rw [exec_sqrt_form]
  refine ⟨rfl, fun r hacc hr hsq hmin => ?_, fun hneg => ?_⟩
  · have hroot : sqrtUp s.acc = r :=
      (sqrtUp_isLeast hacc).unique ⟨⟨hr, hsq⟩, fun k ⟨hk, hksq⟩ => hmin k hk hksq⟩
    exact State.accUnary_checkCell (by simp [hacc.not_gt, hroot])
  · exact State.accUnary_error (if_pos hneg)

/-- Settles O16: the exact sum goes to `checkCell`. -/
theorem addExecutes : Obligations.AddExecutes := by
  intro s a
  rw [exec_add_form]
  exact ⟨rfl, State.accFromCell_exact s a (· + ·)⟩

/-- Settles O17: the exact negation, which the model writes as `0 - Acc`, goes to `checkCell`. -/
theorem negExecutes : Obligations.NegExecutes := by
  intro s
  rw [exec_neg_form]
  exact ⟨rfl, State.accUnary_checkCell (by simp)⟩

/-- Settles O18: the exact product goes to `checkCell`. -/
theorem mulExecutes : Obligations.MulExecutes := by
  intro s a
  rw [exec_mul_form]
  exact ⟨rfl, State.accFromCell_exact s a (· * ·)⟩

end Sys2Proof.Machine

/-! O21 to O25 and O34: the comparison and logic family, a truth value of `Acc` and a cell written as the true or the false cell (R99 to R105). -/

namespace Sys2Proof.Machine

theorem cellOf_decide (p : Prop) [Decidable p] : cellOf (decide p) = if p then 1 else 0 := by
  by_cases hp : p <;> simp [cellOf, hp, trueCell, falseCell]

/-- `Or` of truth values asks whether one cell is nonzero (R104). -/
theorem truthy_or_truthy (v w : Cell) : (truthy v || truthy w) = decide (v ≠ 0 ∨ w ≠ 0) :=
  (Bool.decide_or _ _).symm

/-- `And` of truth values asks whether both cells are nonzero (R105). -/
theorem truthy_and_truthy (v w : Cell) : (truthy v && truthy w) = decide (v ≠ 0 ∧ w ≠ 0) :=
  (Bool.decide_and _ _).symm

/-- All that a comparison of `Acc` with a cell can do: the cell is read first, and no fault but the
Bus's can arise (R99, D8). -/
theorem State.accFromCell_comparison (s : State) (a : Address) {c : Cell → Cell → Bool}
    {P : Cell → Cell → Prop} [DecidableRel P] (hc : ∀ x y, c x y = decide (P x y)) :
    (∀ d, s.read a = .ok d →
      s.accFromCell a (fun t d => .ok (cellOf (c t.acc d))) =
        .next { s with ia := s.ia + 2, acc := if P s.acc d then 1 else 0,
                       outcome := .continued }) ∧
    ∀ k, s.read a = .error k →
      (k = .unmappedAddress a ∨ ∃ off, k = .outOfRange off) ∧
      s.accFromCell a (fun t d => .ok (cellOf (c t.acc d))) =
        .next { s with ia := s.ia + 2, fault := some k, outcome := .faulted k } := by
  refine ⟨fun d hread => ?_, fun k hread => State.accFromCell_accessFault _ hread⟩
  have hcell : cellOf (c s.acc d) = if P s.acc d then 1 else 0 := by rw [hc, cellOf_decide]
  exact State.accFromCell_ok hread (congrArg Except.ok hcell)

/-- The family is `Not` and the comparisons of `Acc` with a cell. -/
theorem exec_comparison_form {i : Instr} (s : State)
    (hi : i.mnemonic ∈ [.eq, .gt, .not, .or, .and]) :
    i = .not ∨ ∃ (a : Address) (c : Cell → Cell → Bool),
      exec i s = s.accFromCell a fun t d => .ok (cellOf (c t.acc d)) := by
  cases i with
  | not => exact .inl rfl
  | eq a => exact .inr ⟨a, fun x y => decide (x = y), exec_eq_form a s⟩
  | gt a => exact .inr ⟨a, fun x y => decide (y < x), exec_gt_form a s⟩
  | or a => exact .inr ⟨a, fun x y => truthy x || truthy y, exec_or_form a s⟩
  | and a => exact .inr ⟨a, fun x y => truthy x && truthy y, exec_and_form a s⟩
  | _ => simp [Instr.mnemonic] at hi

/-- Settles O34: a written cell is `cellOf` of a truth value, and only the read of the data cell can
fault. -/
theorem comparisonsAreCanonical : Obligations.ComparisonsAreCanonical := by
  intro i s t h hi
  obtain rfl | ⟨a, c, hform⟩ := exec_comparison_form s hi
  · rw [exec_not_form, State.accUnary_ok rfl] at h
    cases h
    simp [cellOf_cases]
  · rw [hform] at h
    obtain ⟨d, v, -, hv, rfl⟩ | ⟨k, hread | ⟨d, -, hk⟩, rfl⟩ := State.accFromCell_cases h
    · cases hv
      simp [cellOf_cases]
    · obtain rfl | ⟨off, rfl⟩ := State.read_error hread <;> simp
    · cases hk

/-- Settles O21: the comparison is equality of integers. -/
theorem eqExecutes : Obligations.EqExecutes := by
  intro s a
  rw [exec_eq_form]
  exact ⟨rfl, State.accFromCell_comparison s a fun _ _ => rfl⟩

/-- Settles O22: the comparison is the strict order of integers, `Acc` on the greater side. -/
theorem gtExecutes : Obligations.GtExecutes := by
  intro s a
  rw [exec_gt_form]
  exact ⟨rfl, State.accFromCell_comparison s a (P := (· > ·)) fun _ _ => rfl⟩

/-- Settles O23: no cell is read, so `Not` always writes the truth cell of `Acc = 0`. -/
theorem notExecutes : Obligations.NotExecutes := by
  intro s
  rw [exec_not_form]
  exact ⟨rfl, State.accUnary_ok (congrArg Except.ok (cellOf_decide (s.acc = 0)))⟩

/-- Settles O24: the comparison is the disjunction of the truth values. -/
theorem orExecutes : Obligations.OrExecutes := by
  intro s a
  rw [exec_or_form]
  exact ⟨rfl, State.accFromCell_comparison s a truthy_or_truthy⟩

/-- Settles O25: the comparison is the conjunction of the truth values. -/
theorem andExecutes : Obligations.AndExecutes := by
  intro s a
  rw [exec_and_form]
  exact ⟨rfl, State.accFromCell_comparison s a truthy_and_truthy⟩

end Sys2Proof.Machine

/-! O27: the conditional jump (R106, R110). -/

namespace Sys2Proof.Machine

theorem exec_jif_form (a : Address) (s : State) :
    exec (.jif a) s = s.jumpWhen (truthy s.acc) a := rfl

/-- Settles O27: `IA` is past the instruction before the test, and a taken jump overwrites it. -/
theorem jifExecutes : Obligations.JifExecutes := by
  intro s a
  rw [exec_jif_form, State.jumpWhen_eq]
  refine ⟨rfl, ?_⟩
  by_cases hacc : s.acc = 0
  · simp [truthy, hacc, State.advance, State.returnContinue]
  · simp [truthy, hacc, State.advance, State.setIa, State.returnContinue]

end Sys2Proof.Machine

/-! O13: `Halt` (R88, R112). -/

namespace Sys2Proof.Machine

theorem exec_halt (s : State) : exec .halt s = .next (s.advance 1).returnHalted := rfl

/-- Every handler but `Halt`'s ends in `Continue` or takes a fault (R80, R112). -/
theorem eq_halt_of_exec_outcome_halted {i : Instr} {s t : State} (h : exec i s = .next t)
    (ht : t.outcome = .halted) : i = .halt := by
  rcases exec_cases h with ⟨hi, -⟩ | ⟨a, u, -, -, rfl⟩ | ⟨v, -, -, rfl⟩ | ⟨k, rfl⟩ |
    ⟨a, -, rfl⟩ | ⟨a, -, -, rfl⟩
  case inl => exact hi
  all_goals simp at ht

/-- Settles O13: `Halt` only advances `IA` and returns `Halted`, which no other handler returns. -/
theorem haltExecutes : Obligations.HaltExecutes := by
  intro s
  exact ⟨rfl, exec_halt s, fun i t => eq_halt_of_exec_outcome_halted⟩

end Sys2Proof.Machine

/-! O1, O2, O3 and O52: an instruction's cells, as the encoder writes, the decoder reads and the assembler lists them (R62 to R69). -/

namespace Sys2Proof

/-- What the opcode lookup selects is the form of a mnemonic with that value (R64). -/
theorem exists_mnemonic_of_decodeOpcode {map : OpcodeMap} {v : Cell} {f : Form}
    (h : decodeOpcode map v = some f) : ∃ m, map.value m = v ∧ m.form = f := by
  unfold decodeOpcode at h
  split at h
  · cases h
  · rename_i m hm
    exact ⟨m, OpcodeMap.value_of_mnemonic? hm, Option.some.inj h⟩

/-- An instruction is the whole of its form, or its form applied to its operand (R63). -/
theorem Instr.form_cases (i : Instr) :
    (i.mnemonic.form = .z i ∧ i.operand? = none) ∨
      ∃ build a, i.mnemonic.form = .a build ∧ i = build a ∧ i.operand? = some a := by
  cases i with
  | halt | neg | sqrt | not => exact .inl ⟨rfl, rfl⟩
  | st a | ld a | add a | mul a | div a | eq a | gt a | or a | and a | jmp a | jif a =>
    exact .inr ⟨_, a, rfl, rfl, rfl⟩

theorem Mnemonic.z_form {m : Mnemonic} {i : Instr} (h : m.form = .z i) :
    i.mnemonic = m ∧ i.operand? = none := by
  cases m with
  | halt | neg | sqrt | not => cases h; exact ⟨rfl, rfl⟩
  | _ => cases h

theorem Mnemonic.a_form {m : Mnemonic} {build : Address → Instr} (h : m.form = .a build)
    (a : Address) : (build a).mnemonic = m ∧ (build a).operand? = some a := by
  cases m with
  | halt | neg | sqrt | not => cases h
  | _ => cases h; exact ⟨rfl, rfl⟩

theorem Mnemonic.exists_a_form {m : Mnemonic} (h : m.arity = 1) : ∃ build, m.form = .a build := by
  cases hm : m.form with
  | z i => simp [Mnemonic.arity, hm] at h
  | a build => exact ⟨build, rfl⟩

theorem encode_of_no_operand {i : Instr} (map : OpcodeMap) (h : i.operand? = none) :
    encode map i = [map.value i.mnemonic] := by
  simp [encode, h]

theorem encode_of_operand {i : Instr} {a : Address} (map : OpcodeMap) (h : i.operand? = some a) :
    encode map i = [map.value i.mnemonic, (a : Cell)] := by
  simp [encode, h]

theorem decode_of_z {map : OpcodeMap} {v : Cell} {i : Instr} (rest : List Cell)
    (h : decodeOpcode map v = some (.z i)) : decode map (v :: rest) = .ok (i, rest) := by
  simp [decode, h]

theorem decode_of_a {map : OpcodeMap} {v : Cell} {build : Address → Instr} (a : Address)
    (rest : List Cell) (h : decodeOpcode map v = some (.a build)) :
    decode map (v :: (a : Cell) :: rest) = .ok (build a, rest) := by
  simp [decode, h]

/-- All a successful decode can have read: an opcode of format `Z`, or one of format `A` and an
address (R62, R66). -/
theorem decode_eq_ok {map : OpcodeMap} {cells rest : List Cell} {i : Instr}
    (h : decode map cells = .ok (i, rest)) :
    (∃ v, cells = v :: rest ∧ decodeOpcode map v = some (.z i)) ∨
      ∃ v, ∃ a : Address, ∃ build, cells = v :: (a : Cell) :: rest ∧
        decodeOpcode map v = some (.a build) ∧ i = build a := by
  cases cells with
  | nil => simp [decode] at h
  | cons v cells =>
    cases hv : decodeOpcode map v with
    | none => simp [decode, hv] at h
    | some f =>
      cases f with
      | z j =>
        rw [decode_of_z cells hv] at h
        cases h
        exact .inl ⟨v, rfl, hv⟩
      | a build =>
        cases cells with
        | nil => simp [decode, hv] at h
        | cons c cells =>
          cases hc : decodeOperand c with
          | none => simp [decode, hv, hc] at h
          | some a =>
            obtain rfl := decodeOperand_eq_some.1 hc
            rw [decode_of_a a cells hv] at h
            cases h
            exact .inr ⟨v, a, build, rfl, hv, rfl⟩

/-- Settles O1: an injective map gives the opcode cell back its mnemonic, and an address converts
back from its cell. -/
theorem decodeOfEncode : Obligations.DecodeOfEncode := by
  intro map hmap i rest
  have hopcode := decodeOpcode_value hmap i.mnemonic
  obtain ⟨hform, hop⟩ | ⟨build, a, hform, hi, hop⟩ := i.form_cases
  · rw [encode_of_no_operand map hop]
    exact decode_of_z rest (hopcode.trans (congrArg some hform))
  · rw [encode_of_operand map hop, hi]
    exact decode_of_a a rest (hi ▸ hopcode.trans (congrArg some hform))

/-- Settles O2: the opcode cell is the value of the mnemonic found, and the operand cell is the
address it converts to. -/
theorem encodeOfDecode : Obligations.EncodeOfDecode := by
  intro map cells rest i h
  obtain ⟨v, rfl, hv⟩ | ⟨v, a, build, rfl, hv, rfl⟩ := decode_eq_ok h
  · obtain ⟨m, rfl, hm⟩ := exists_mnemonic_of_decodeOpcode hv
    obtain ⟨rfl, hop⟩ := Mnemonic.z_form hm
    rw [encode_of_no_operand map hop]
    rfl
  · obtain ⟨m, rfl, hm⟩ := exists_mnemonic_of_decodeOpcode hv
    obtain ⟨hmn, hop⟩ := Mnemonic.a_form hm a
    rw [encode_of_operand map hop, hmn]
    rfl

/-- Settles O3: the decoder is evaluated on each list of cells. -/
theorem specCellsDecode : Obligations.SpecCellsDecode := by
  unfold Obligations.SpecCellsDecode
  decide

end Sys2Proof

namespace Sys2Proof.Machine

theorem ProgramItem.map_cell_data (map : OpcodeMap) (k : Int) :
    (ProgramItem.data k).cells.map (HostValue.cell map) = [k] := rfl

theorem ProgramItem.map_cell_instr (map : OpcodeMap) (i : Instr) :
    (ProgramItem.instr i).cells.map (HostValue.cell map) = encode map i := by
  cases hop : i.operand? with
  | none => simp [ProgramItem.cells, hop, encode_of_no_operand map hop, HostValue.cell]
  | some a => simp [ProgramItem.cells, hop, encode_of_operand map hop, HostValue.cell]

/-- Settles O52: conversion goes through the image item by item. -/
theorem assembledImageIsEncoding : Obligations.AssembledImageIsEncoding := by
  intro map items
  rw [assemble, List.map_flatMap]
  refine congrArg items.flatMap (funext fun item => ?_)
  cases item with
  | instr i => exact ProgramItem.map_cell_instr map i
  | data k => exact ProgramItem.map_cell_data map k

end Sys2Proof.Machine

/-! O5 to O8: the fetch, and what a step answers (R74 to R78, R82, R114). -/

namespace Sys2Proof.Machine

theorem State.fetch_of_opcodeFault {s : State} {k : Fault} (h : s.read s.ia = .error k) :
    s.fetch = .error k := by
  simp [State.fetch, h]

/-- Format `Z`: the opcode cell is all that is read (R77). -/
theorem State.fetch_of_z {s : State} {v : Cell} {i : Instr} (hread : s.read s.ia = .ok v)
    (hv : decodeOpcode s.config.opcodes v = some (.z i)) : s.fetch = .ok i := by
  simp [State.fetch, hread, hv]

section FormatA
variable {s : State} {v : Cell} {build : Address → Instr}

theorem State.fetch_of_a {a : Address} (hread : s.read s.ia = .ok v)
    (hv : decodeOpcode s.config.opcodes v = some (.a build))
    (hoperand : s.read (s.ia + 1) = .ok (a : Cell)) : s.fetch = .ok (build a) := by
  simp [State.fetch, hread, hv, hoperand]

theorem State.fetch_of_operandFault {k : Fault} (hread : s.read s.ia = .ok v)
    (hv : decodeOpcode s.config.opcodes v = some (.a build))
    (hoperand : s.read (s.ia + 1) = .error k) : s.fetch = .error k := by
  simp [State.fetch, hread, hv, hoperand]

theorem State.fetch_of_negativeOperand {c : Cell} (hread : s.read s.ia = .ok v)
    (hv : decodeOpcode s.config.opcodes v = some (.a build))
    (hoperand : s.read (s.ia + 1) = .ok c) (hc : c < 0) :
    s.fetch = .error (.unmappedAddress c) := by
  simp [State.fetch, hread, hv, hoperand, decodeOperand_eq_none.2 hc]

end FormatA

/-- All the faults of stages 1 to 3 (R114). -/
theorem State.fetch_eq_error {s : State} {k : Fault} (h : s.fetch = .error k) :
    (∃ a, s.read a = .error k) ∨ (∃ v, k = .invalidInstruction s.ia v) ∨
      ∃ c, k = .unmappedAddress c := by
  unfold State.fetch at h
  split at h
  · cases h; exact .inl ⟨s.ia, ‹_›⟩
  · split at h
    · cases h; exact .inr (.inl ⟨_, rfl⟩)
    · cases h
    · split at h
      · cases h; exact .inl ⟨s.ia + 1, ‹_›⟩
      · split at h
        · cases h; exact .inr (.inr ⟨_, rfl⟩)
        · cases h

/-- Settles O5: decoding a list and fetching from memory make the same choices; a list of two cells
whose first is of format `Z` would leave one over. -/
theorem stepRunsDecodedInstruction : Obligations.StepRunsDecodedInstruction := by
  intro s i hfault
  refine ⟨fun v hread hdec => ?_, fun v c hread hoperand hdec => ?_⟩
  · obtain ⟨w, hcells, hw⟩ | ⟨w, a, build, hcells, -, -⟩ := decode_eq_ok hdec
    · cases hcells
      exact step_of_fetch_ok hfault (State.fetch_of_z hread hw)
    · cases hcells
  · obtain ⟨w, hcells, -⟩ | ⟨w, a, build, hcells, hw, rfl⟩ := decode_eq_ok hdec
    · cases hcells
    · cases hcells
      exact step_of_fetch_ok hfault (State.fetch_of_a hread hw hoperand)

/-- Settles O6: each condition ends the fetch at its stage, and the step takes the fault in the state
as it was. -/
theorem earlyFaultsInOrder : Obligations.EarlyFaultsInOrder := by
  intro s hfault hmap
  have hform : ∀ {m : Mnemonic} {build}, m.form = .a build →
      decodeOpcode s.config.opcodes (s.config.opcodes.value m) = some (.a build) :=
    fun hm => (decodeOpcode_value hmap _).trans (congrArg some hm)
  refine ⟨fun k hread => ?_, fun v hread hv => ?_, fun m k hread harity hoperand => ?_,
    fun m c hread harity hoperand hc => ?_⟩
  · exact step_of_fetch_error hfault (State.fetch_of_opcodeFault hread)
  · exact step_of_fetch_error hfault (State.fetch_of_illegalOpcode hread hv)
  · obtain ⟨build, hm⟩ := Mnemonic.exists_a_form harity
    exact step_of_fetch_error hfault (State.fetch_of_operandFault hread (hform hm) hoperand)
  · obtain ⟨build, hm⟩ := Mnemonic.exists_a_form harity
    exact step_of_fetch_error hfault (State.fetch_of_negativeOperand hread (hform hm) hoperand hc)

/-- The forms an instruction can have: what it computes depends on the configuration, `Acc` and the
cell at its operand alone (R63, R67). -/
inductive ExecForm (i : Instr) : Prop where
  | halt (hi : i = .halt)
  | store (a : Address) (hi : i = .st a)
  | jump (a : Address) (c : Cell → Bool) (hexec : ∀ s, exec i s = s.jumpWhen (c s.acc) a)
  | unary (g : Config → Cell → Except Fault Cell)
      (hexec : ∀ s, exec i s = s.accUnary fun t => g t.config t.acc)
  | cell (a : Address) (g : Config → Cell → Cell → Except Fault Cell) (hop : i.operand? = some a)
      (hexec : ∀ s, exec i s = s.accFromCell a fun t d => g t.config t.acc d)

theorem exec_form (i : Instr) : ExecForm i := by
  cases i with
  | halt => exact .halt rfl
  | st a => exact .store a rfl
  | ld a => exact .cell a (fun _ _ d => .ok d) rfl (exec_ld_form a)
  | add a => exact .cell a (fun cfg acc d => checkCell cfg (acc + d)) rfl (exec_add_form a)
  | neg => exact .unary (fun cfg acc => checkCell cfg (0 - acc)) exec_neg_form
  | mul a => exact .cell a (fun cfg acc d => checkCell cfg (acc * d)) rfl (exec_mul_form a)
  | div a =>
    exact .cell a (fun cfg acc d => if d = 0 then .error (.divideByZero a)
      else checkCell cfg (roundAway (Rat.divInt acc d))) rfl (exec_div_form a)
  | sqrt =>
    exact .unary (fun cfg acc => if acc < 0 then .error (.sqrtOfNegative acc)
      else checkCell cfg (sqrtUp acc)) exec_sqrt_form
  | eq a => exact .cell a (fun _ acc d => .ok (cellOf (decide (acc = d)))) rfl (exec_eq_form a)
  | gt a => exact .cell a (fun _ acc d => .ok (cellOf (decide (d < acc)))) rfl (exec_gt_form a)
  | not => exact .unary (fun _ acc => .ok (cellOf (decide (acc = falseCell)))) exec_not_form
  | or a =>
    exact .cell a (fun _ acc d => .ok (cellOf (truthy acc || truthy d))) rfl (exec_or_form a)
  | and a =>
    exact .cell a (fun _ acc d => .ok (cellOf (truthy acc && truthy d))) rfl (exec_and_form a)
  | jmp a => exact .jump a (fun _ => true) fun _ => rfl
  | jif a => exact .jump a truthy (exec_jif_form a)

theorem State.finish_answers (s : State) (x : Except Fault State) : ∃ t, s.finish x = .next t := by
  cases x with
  | ok t => exact ⟨_, s.finish_ok t⟩
  | error k => exact ⟨_, s.finish_error k⟩

/-- Every form but `Halt`'s ends in `finish`, and `Halt` answers outright. -/
theorem exec_answers (i : Instr) (s : State) : ∃ t, exec i s = .next t := by
  cases exec_form i with
  | halt hi => subst hi; exact ⟨_, exec_halt s⟩
  | store a hi => subst hi; exact State.finish_answers _ _
  | jump a c hexec => rw [hexec]; exact ⟨_, State.jumpWhen_eq _ _ _⟩
  | unary g hexec => rw [hexec]; exact State.finish_answers _ _
  | cell a g _ hexec => rw [hexec]; exact State.finish_answers _ _

/-- Settles O7: a recorded fault is the answer; otherwise the fetch faults, and the fault is taken, or
an instruction answers. -/
theorem stepAnswersOrStops : Obligations.StepAnswersOrStops := by
  intro s
  cases hfault : s.fault with
  | some k => exact .inr ⟨k, rfl, step_of_fault hfault⟩
  | none =>
    refine .inl ⟨rfl, ?_⟩
    cases hfetch : s.fetch with
    | error k => exact ⟨_, step_of_fetch_error hfault hfetch⟩
    | ok i => rw [step_of_fetch_ok hfault hfetch]; exact exec_answers i s

/-- `s` as if its last step had returned `o`. -/
def State.withOutcome (s : State) (o : StepOutcome) : State := { s with outcome := o }

@[simp] theorem State.read_withOutcome (s : State) (o : StepOutcome) (a : Address) :
    (s.withOutcome o).read a = s.read a := State.read_congr rfl rfl a

theorem State.write_withOutcome (s : State) (o : StepOutcome) (a : Address) (v : Cell) :
    (s.withOutcome o).write a v = (s.write a v).map fun t => t.withOutcome o := by
  cases hread : s.read a with
  | ok w =>
    obtain ⟨d, off, r, hroute, hr, hoff, -⟩ := State.read_eq_ok hread
    rw [State.write_of_route hroute hr hoff,
      State.write_of_route (s := s.withOutcome o) ((State.route_congr rfl a).trans hroute) hr hoff]
    rfl
  | error k =>
    rw [State.write_eq_error v hread,
      State.write_eq_error v ((s.read_withOutcome o a).trans hread)]
    rfl

theorem State.jumpWhen_withOutcome (s : State) (o : StepOutcome) (c : Bool) (a : Address) :
    (s.withOutcome o).jumpWhen c a = s.jumpWhen c a := by
  cases c <;> rfl

/-- Whatever a handler ends in, it writes the outcome anew. -/
theorem exec_withOutcome (i : Instr) (s : State) (o : StepOutcome) :
    exec i (s.withOutcome o) = exec i s := by
  cases exec_form i with
  | halt hi => subst hi; rfl
  | store a hi =>
    subst hi
    have hwrite := s.write_withOutcome o a s.acc
    cases hw : s.write a s.acc with
    | ok t =>
      rw [hw] at hwrite
      exact (State.accToCell_ok hwrite).trans (State.accToCell_ok hw).symm
    | error k =>
      rw [hw] at hwrite
      exact (State.accToCell_error hwrite).trans (State.accToCell_error hw).symm
  | jump a c hexec =>
    rw [hexec, hexec]
    exact s.jumpWhen_withOutcome o (c s.acc) a
  | unary g hexec =>
    rw [hexec, hexec]
    cases hg : g s.config s.acc with
    | ok v => exact (State.accUnary_ok hg).trans (State.accUnary_ok (s := s) hg).symm
    | error k => exact (State.accUnary_error hg).trans (State.accUnary_error (s := s) hg).symm
  | cell a g _ hexec =>
    rw [hexec, hexec]
    have hread := s.read_withOutcome o a
    cases hd : s.read a with
    | error k =>
      exact (State.accFromCell_read_error (hread.trans hd)).trans
        (State.accFromCell_read_error hd).symm
    | ok d =>
      cases hg : g s.config s.acc d with
      | ok v =>
        exact (State.accFromCell_ok (hread.trans hd) hg).trans (State.accFromCell_ok hd hg).symm
      | error k =>
        exact (State.accFromCell_error (hread.trans hd) hg).trans
          (State.accFromCell_error hd hg).symm

/-- The fetch looks at the opcode map, `IA` and the two cells there (R75 to R78). -/
theorem State.fetch_congr {s u : State} (hconfig : s.config = u.config) (hia : s.ia = u.ia)
    (hopcode : s.read s.ia = u.read s.ia) (hoperand : s.read (s.ia + 1) = u.read (s.ia + 1)) :
    s.fetch = u.fetch := by
  rw [hia] at hopcode hoperand
  simp only [State.fetch, hia, hopcode, hoperand, hconfig]

/-- Settles O8: neither the fetch nor a handler looks at the outcome, and every next state has its
outcome written anew. -/
theorem stepIgnoresLastOutcome : Obligations.StepIgnoresLastOutcome := by
  intro s o
  change step (s.withOutcome o) = step s
  have hfetch : (s.withOutcome o).fetch = s.fetch :=
    State.fetch_congr rfl rfl (s.read_withOutcome o _) (s.read_withOutcome o _)
  cases hfault : s.fault with
  | some k => rw [step_of_fault hfault, step_of_fault (s := s.withOutcome o) hfault]
  | none =>
    cases hi : s.fetch with
    | error k =>
      rw [step_of_fetch_error hfault hi,
        step_of_fetch_error (s := s.withOutcome o) hfault (hfetch.trans hi)]
      rfl
    | ok i =>
      rw [step_of_fetch_ok hfault hi,
        step_of_fetch_ok (s := s.withOutcome o) hfault (hfetch.trans hi), exec_withOutcome]

end Sys2Proof.Machine

/-! O28 to O33 and O35: what every instruction keeps, and where its faults come from (R27, R32, R55, R81 to R83, R85, R111). -/

namespace Sys2Proof.Machine

/-- A write reaches the devices and nothing else (R47). -/
theorem State.write_registers {s t : State} {a : Address} {v : Cell} (h : s.write a v = .ok t) :
    t = { s with devices := t.devices } := by
  obtain ⟨d, off, r, -, -, -, rfl⟩ := State.write_eq_ok h
  rfl

/-- A cell that can be read can be written (R46, R47). -/
theorem State.exists_write {s : State} {a : Address} {d : Cell} (v : Cell) (h : s.read a = .ok d) :
    ∃ t, s.write a v = .ok t := by
  obtain ⟨e, off, r, hroute, hr, hoff, -⟩ := State.read_eq_ok h
  exact ⟨_, State.write_of_route hroute hr hoff⟩

theorem State.read_error_of_write {s : State} {a : Address} {v : Cell} {k : Fault}
    (h : s.write a v = .error k) : s.read a = .error k := by
  cases hread : s.read a with
  | error k' => rw [State.write_eq_error v hread] at h; cases h; rfl
  | ok d =>
    obtain ⟨t, ht⟩ := State.exists_write v hread
    rw [ht] at h
    cases h

/-- A read faults where no range owns the address, or at the offset its range routes it to. -/
theorem State.read_eq_error {s : State} {a : Address} {k : Fault} (h : s.read a = .error k) :
    (k = .unmappedAddress a ∧ busFind s.config.busTable a = none) ∨
      ∃ d off, k = .outOfRange off ∧ s.route a = .ok (d, off) := by
  cases hfind : busFind s.config.busTable a with
  | none =>
    simp only [State.read, State.route, hfind] at h
    cases h
    exact .inl ⟨rfl, rfl⟩
  | some e =>
    have hroute : s.route a = .ok (e.device, a - e.range.start) := by simp [State.route, hfind]
    refine .inr ⟨e.device, a - e.range.start, ?_, hroute⟩
    simp only [State.read, hroute, State.deviceGet, Ram.get] at h
    split at h
    · cases h; rfl
    · split at h
      · cases h
      · cases h; rfl

/-- The fault record after an instruction: the fault it took, else what it was (R32). -/
theorem exec_fault {i : Instr} {s t : State} (h : exec i s = .next t) :
    t.fault = t.outcome.fault?.or s.fault := by
  rcases exec_cases h with ⟨-, rfl⟩ | ⟨a, u, -, hw, rfl⟩ | ⟨v, -, -, rfl⟩ | ⟨k, rfl⟩ |
    ⟨a, -, rfl⟩ | ⟨a, -, -, rfl⟩
  case inr.inl => rw [State.write_registers hw]; rfl
  all_goals rfl

/-- After a step the fault record is the fault the step returned, and empty when it returned none
(R32, R116). -/
theorem step_fault {s t : State} (h : step s = .next t) : t.fault = t.outcome.fault? := by
  obtain ⟨hfault, ⟨k, -, rfl⟩ | ⟨i, -, hi⟩⟩ := step_cases h
  · rfl
  · rw [exec_fault hi, hfault, Option.or_none]

/-- Settles O28: of the ways an instruction can end, only taking a fault answers that outcome, and it
takes it in the advanced state. -/
theorem stageFiveFaultsPrecise : Obligations.StageFiveFaultsPrecise := by
  intro i s t k h hk
  rcases exec_cases h with ⟨-, rfl⟩ | ⟨a, u, -, -, rfl⟩ | ⟨v, -, -, rfl⟩ | ⟨k', rfl⟩ |
    ⟨a, -, rfl⟩ | ⟨a, -, -, rfl⟩
  case inr.inr.inr.inl => cases hk; rfl
  all_goals cases hk

theorem State.accUnary_faulted {s t : State} {f : State → Except Fault Cell} {k : Fault}
    (h : s.accUnary f = .next t) (hk : t.outcome = .faulted k) : f (s.advance 1) = .error k := by
  obtain ⟨v, -, rfl⟩ | ⟨k', hf, rfl⟩ := State.accUnary_cases h
  · cases hk
  · cases hk; exact hf

theorem State.accFromCell_faulted {s t : State} {a : Address} {f : State → Cell → Except Fault Cell}
    {k : Fault} (h : s.accFromCell a f = .next t) (hk : t.outcome = .faulted k) :
    s.read a = .error k ∨ ∃ d, s.read a = .ok d ∧ f (s.advance 2) d = .error k := by
  obtain ⟨d, v, -, -, rfl⟩ | ⟨k', hfault, rfl⟩ := State.accFromCell_cases h
  · cases hk
  · cases hk; exact hfault

theorem State.accToCell_faulted {s t : State} {a : Address} {k : Fault}
    (h : s.accToCell a = .next t) (hk : t.outcome = .faulted k) : s.read a = .error k := by
  obtain ⟨u, -, rfl⟩ | ⟨k', hw, rfl⟩ := State.accToCell_cases h
  · cases hk
  · cases hk; exact State.read_error_of_write hw

/-- Where a fault of stage 5 comes from: the access to the data cell, a zero divisor, the root of a
negative `Acc`, or `checkCell` of a result (R111). -/
theorem exec_fault_source {i : Instr} {s t : State} {k : Fault} (h : exec i s = .next t)
    (hk : t.outcome = .faulted k) :
    (∃ a, i.operand? = some a ∧ i ≠ .jmp a ∧ i ≠ .jif a ∧ s.read a = .error k) ∨
    (∃ a, i = .div a ∧ s.read a = .ok 0 ∧ k = .divideByZero a) ∨
    (i = .sqrt ∧ s.acc < 0 ∧ k = .sqrtOfNegative s.acc) ∨
    ∃ v, i.mnemonic ∈ [.add, .neg, .mul, .div, .sqrt] ∧ s.config.admits v = false ∧
      k = .cellOverflow v := by
  have overflow {v : Cell} (hm : i.mnemonic ∈ [.add, .neg, .mul, .div, .sqrt])
      (hv : checkCell s.config v = .error k) : ∃ v, i.mnemonic ∈ [.add, .neg, .mul, .div, .sqrt] ∧
        s.config.admits v = false ∧ k = .cellOverflow v :=
    ⟨v, hm, (checkCell_eq_error hv).symm⟩
  cases i with
  | halt | jmp a => cases h; cases hk
  | jif a => rw [exec_jif_form, State.jumpWhen_eq] at h; cases h; cases hk
  | st a => exact .inl ⟨a, rfl, nofun, nofun, State.accToCell_faulted h hk⟩
  | ld a | eq a | gt a | or a | and a =>
    simp only [exec_ld_form, exec_eq_form, exec_gt_form, exec_or_form, exec_and_form] at h
    obtain hread | ⟨d, -, hd⟩ := State.accFromCell_faulted h hk
    · exact .inl ⟨a, rfl, nofun, nofun, hread⟩
    · cases hd
  | add a | mul a =>
    simp only [exec_add_form, exec_mul_form] at h
    obtain hread | ⟨d, -, hd⟩ := State.accFromCell_faulted h hk
    · exact .inl ⟨a, rfl, nofun, nofun, hread⟩
    · exact .inr (.inr (.inr (overflow (by simp [Instr.mnemonic]) hd)))
  | div a =>
    rw [exec_div_form] at h
    obtain hread | ⟨d, hread, hd⟩ := State.accFromCell_faulted h hk
    · exact .inl ⟨a, rfl, nofun, nofun, hread⟩
    · split at hd
      · rename_i hzero
        cases hd
        exact .inr (.inl ⟨a, rfl, hzero ▸ hread, rfl⟩)
      · exact .inr (.inr (.inr (overflow (by simp [Instr.mnemonic]) hd)))
  | not =>
    rw [exec_not_form] at h
    cases State.accUnary_faulted h hk
  | neg =>
    rw [exec_neg_form] at h
    exact .inr (.inr (.inr (overflow (by simp [Instr.mnemonic]) (State.accUnary_faulted h hk))))
  | sqrt =>
    rw [exec_sqrt_form] at h
    have hf := State.accUnary_faulted h hk
    split at hf
    · cases hf
      exact .inr (.inr (.inl ⟨rfl, ‹_›, rfl⟩))
    · exact .inr (.inr (.inr (overflow (by simp [Instr.mnemonic]) hf)))

/-- Settles O29: each source of a fault gives its kinds, and a failed access names the address or the
offset it was routed to. -/
theorem faultKindsByInstruction : Obligations.FaultKindsByInstruction := by
  intro i s t k h hk
  obtain ⟨a, hop, hjmp, hjif, hread⟩ | ⟨a, hi, hread, rfl⟩ | ⟨hi, hneg, rfl⟩ | ⟨v, hm, hv, rfl⟩ :=
    exec_fault_source h hk
  · obtain ⟨rfl, hfind⟩ | ⟨d, off, rfl, hroute⟩ := State.read_eq_error hread
    · exact ⟨a, hop, rfl, hjmp, hjif, hfind⟩
    · exact ⟨a, d, hop, hjmp, hjif, hroute⟩
  · exact ⟨hi, hread⟩
  · exact ⟨hi, rfl, hneg⟩
  · exact ⟨hm, hv⟩

/-- Every range of the bus table fits the device it names (R55). -/
def State.RangesFit (s : State) : Prop :=
  ∀ e ∈ s.config.busTable, ∃ r, s.devices[e.device]? = some r ∧ e.range.length ≤ r.capacity

/-- An owned address lies in its range, so its offset lies below the range's length. -/
theorem State.RangesFit.read_ne_outOfRange {s : State} (hfit : s.RangesFit) (a : Address)
    (off : Nat) : s.read a ≠ .error (.outOfRange off) := by
  intro hread
  cases hfind : busFind s.config.busTable a with
  | none => simp [State.read, State.route, hfind] at hread
  | some e =>
    obtain ⟨he, howns⟩ := busFind_eq_some hfind
    obtain ⟨r, hr, hlen⟩ := hfit e he
    obtain ⟨hstart, hend⟩ := AddressRange.owns_iff.1 howns
    have hoff : a - e.range.start < r.capacity := by dsimp only [Address] at *; omega
    have hroute : s.route a = .ok (e.device, a - e.range.start) := by simp [State.route, hfind]
    rw [State.read_of_route hroute hr hoff] at hread
    cases hread

theorem State.rangesFit_of_hasReferenceMap {s : State} (h : s.hasReferenceMap = true) :
    s.RangesFit := by
  obtain ⟨htable, r, hdev, hcap⟩ := State.hasReferenceMap_iff.1 h
  intro e he
  obtain rfl : e = referenceAttachment := List.mem_singleton.1 (htable ▸ he)
  exact ⟨r, by simp [referenceAttachment, hdev], by simp [referenceAttachment, referenceCapacity, hcap]⟩

/-- Settles O30: `OutOfRange` comes from an access alone, in the fetch or in the handler, and where
the ranges fit no access raises it. -/
theorem outOfRangeNeedsLongRange : Obligations.OutOfRangeNeedsLongRange := by
  refine ⟨fun s t off hfit hstep hout => ?_, fun s => State.rangesFit_of_hasReferenceMap⟩
  have hread : ∀ a, s.read a ≠ .error (.outOfRange off) :=
    fun a => State.RangesFit.read_ne_outOfRange hfit a off
  obtain ⟨-, ⟨k, hfetch, rfl⟩ | ⟨i, -, hi⟩⟩ := step_cases hstep
  · cases hout
    obtain ⟨a, ha⟩ | ⟨v, hv⟩ | ⟨c, hc⟩ := State.fetch_eq_error hfetch
    · exact hread a ha
    · cases hv
    · cases hc
  · obtain ⟨a, -, -, -, ha⟩ | ⟨a, -, -, hk⟩ | ⟨-, -, hk⟩ | ⟨v, -, -, hk⟩ := exec_fault_source hi hout
    · exact hread a ha
    all_goals cases hk

/-- Settles O31: only the form that writes `Acc` changes it, and it is none of the four. -/
theorem accOnlyWrittenByItsWriters : Obligations.AccOnlyWrittenByItsWriters := by
  intro i s t h hi
  rcases exec_cases h with ⟨-, rfl⟩ | ⟨a, u, -, hw, rfl⟩ | ⟨v, hm, -, -⟩ | ⟨k, rfl⟩ |
    ⟨a, -, rfl⟩ | ⟨a, -, -, rfl⟩
  case inr.inl => rw [State.write_registers hw]; rfl
  case inr.inr.inl => exact absurd hi hm
  all_goals rfl

/-- Settles O32: only a store touches the devices, and with them and the table the same every address
reads as before. -/
theorem onlyStWritesMemory : Obligations.OnlyStWritesMemory := by
  intro i s t h hi
  have hdev : t.devices = s.devices := by
    rcases exec_cases h with ⟨-, rfl⟩ | ⟨a, u, rfl, -, -⟩ | ⟨v, -, -, rfl⟩ | ⟨k, rfl⟩ |
      ⟨a, -, rfl⟩ | ⟨a, -, -, rfl⟩
    case inr.inl => exact absurd rfl hi
    all_goals rfl
  obtain ⟨hconfig, -⟩ := exec_sameSetup h
  exact ⟨hdev, State.read_congr hconfig hdev⟩

/-- Settles O33: `Halt` and a fault do not return `Continue`; a write of `Acc` is of no jump, and a
store moves `IA` past its two cells. -/
theorem iaAfterContinue : Obligations.IaAfterContinue := by
  intro i s t h hout
  rcases exec_cases h with ⟨-, rfl⟩ | ⟨a, u, rfl, hw, rfl⟩ | ⟨v, hm, -, rfl⟩ | ⟨k, rfl⟩ |
    ⟨a, rfl | ⟨rfl, hacc⟩, rfl⟩ | ⟨a, rfl, hacc, rfl⟩
  · cases hout
  · rw [State.write_registers hw]; rfl
  · cases i with
    | jmp a | jif a => simp [Instr.mnemonic] at hm
    | _ => rfl
  · cases hout
  · rfl
  · exact (if_pos hacc).symm
  · exact (if_neg (not_not.2 hacc)).symm

/-- Settles O35: no instruction touches the setup, and the record is the fault taken or what it
was. -/
theorem recordChangesOnlyOnFault : Obligations.RecordChangesOnlyOnFault := by
  intro i s t h
  obtain ⟨hconfig, -⟩ := exec_sameSetup h
  refine ⟨hconfig, ?_⟩
  have hfault := exec_fault h
  cases hout : t.outcome with
  | continued | halted | faulted k => rw [hout] at hfault; exact hfault

end Sys2Proof.Machine

/-! O36: an instruction's registers, record and outcome depend on the cells it accesses (R85). -/

namespace Sys2Proof.Machine

/-- What a step shows of a machine but its memory: registers, outcome and fault record. -/
def State.SameRegisters (t v : State) : Prop :=
  t.ia = v.ia ∧ t.acc = v.acc ∧ t.outcome = v.outcome ∧ t.fault = v.fault

/-- Two machines that agree in registers and record and at the instruction's operand execute it
alike. -/
theorem exec_sameRegisters {i : Instr} {s u : State} (hconfig : s.config = u.config)
    (hia : s.ia = u.ia) (hacc : s.acc = u.acc) (hfault : s.fault = u.fault)
    (hread : ∀ a, i.operand? = some a → u.read a = s.read a) :
    ∃ t v, exec i s = .next t ∧ exec i u = .next v ∧ t.SameRegisters v := by
  cases exec_form i with
  | halt hi =>
    subst hi
    exact ⟨_, _, exec_halt s, exec_halt u, congrArg (· + 1) hia, hacc, rfl, hfault⟩
  | store a hi =>
    subst hi
    have hreada := hread a rfl
    cases hd : s.read a with
    | error k =>
      exact ⟨_, _, State.accToCell_error (State.write_eq_error _ hd),
        State.accToCell_error (State.write_eq_error _ (hreada.trans hd)),
        congrArg (· + 2) hia, hacc, rfl, rfl⟩
    | ok d =>
      obtain ⟨s', hs⟩ := State.exists_write s.acc hd
      obtain ⟨u', hu⟩ := State.exists_write u.acc (hreada.trans hd)
      refine ⟨_, _, State.accToCell_ok hs, State.accToCell_ok hu, ?_⟩
      rw [State.write_registers hs, State.write_registers hu]
      exact ⟨congrArg (· + 2) hia, hacc, rfl, hfault⟩
  | jump a c hexec =>
    refine ⟨_, _, hexec s, hexec u, ?_⟩
    rw [← hacc]
    cases c s.acc with
    | true => exact ⟨rfl, hacc, rfl, hfault⟩
    | false => exact ⟨congrArg (· + 2) hia, hacc, rfl, hfault⟩
  | unary g hexec =>
    rw [hexec, hexec]
    have hgu : g u.config u.acc = g s.config s.acc := by rw [hconfig, hacc]
    cases hg : g s.config s.acc with
    | ok w =>
      exact ⟨_, _, State.accUnary_ok (s := s) hg, State.accUnary_ok (s := u) (hgu.trans hg),
        congrArg (· + 1) hia, rfl, rfl, hfault⟩
    | error k =>
      exact ⟨_, _, State.accUnary_error (s := s) hg, State.accUnary_error (s := u) (hgu.trans hg),
        congrArg (· + 1) hia, hacc, rfl, rfl⟩
  | cell a g hop hexec =>
    rw [hexec, hexec]
    have hreada := hread a hop
    cases hd : s.read a with
    | error k =>
      exact ⟨_, _, State.accFromCell_read_error hd, State.accFromCell_read_error (hreada.trans hd),
        congrArg (· + 2) hia, hacc, rfl, rfl⟩
    | ok d =>
      have hgu : g u.config u.acc d = g s.config s.acc d := by rw [hconfig, hacc]
      cases hg : g s.config s.acc d with
      | ok w =>
        exact ⟨_, _, State.accFromCell_ok hd hg,
          State.accFromCell_ok (hreada.trans hd) (hgu.trans hg),
          congrArg (· + 2) hia, rfl, rfl, hfault⟩
      | error k =>
        exact ⟨_, _, State.accFromCell_error hd hg,
          State.accFromCell_error (hreada.trans hd) (hgu.trans hg),
          congrArg (· + 2) hia, hacc, rfl, rfl⟩

/-- Settles O36: both machines fetch the same instruction, or the same fault, and execute it alike. -/
theorem stepReadsOnlyItsCells : Obligations.StepReadsOnlyItsCells := by
  intro s u t v hconfig hia hacc hfault hopcode hoperand hdata ht hv
  have hfetch : s.fetch = u.fetch := State.fetch_congr hconfig hia hopcode hoperand
  obtain ⟨hnone, -⟩ := step_cases ht
  have hnoneu : u.fault = none := hfault.symm.trans hnone
  cases hi : s.fetch with
  | error k =>
    rw [step_of_fetch_error hnone hi] at ht
    rw [step_of_fetch_error hnoneu (hfetch.symm.trans hi)] at hv
    cases ht
    cases hv
    exact ⟨hia, hacc, rfl, rfl⟩
  | ok i =>
    obtain ⟨t', v', ht', hv', hsame⟩ :=
      exec_sameRegisters hconfig hia hacc hfault fun a hop => (hdata i a hi hop).symm
    rw [step_of_fetch_ok hnone hi, ht'] at ht
    rw [step_of_fetch_ok hnoneu (hfetch.symm.trans hi), hv'] at hv
    cases ht
    cases hv
    exact hsame

end Sys2Proof.Machine

/-! O9 and O10: the machine's invariant (R17, R30, R32 to R34, R45, R65, R99). -/

namespace Sys2Proof.Machine

/-- A cell reads 0 or what is listed for it. -/
theorem Memory.read_eq_zero_or_mem (m : Memory) (off : Nat) :
    m.read off = 0 ∨ (off, m.read off) ∈ m := by
  induction m with
  | nil => exact .inl rfl
  | cons p rest ih =>
    obtain ⟨k, v⟩ := p
    rw [Memory.read_cons]
    split
    next hk => exact .inr (hk ▸ List.mem_cons_self)
    next => exact ih.imp_right (List.mem_cons_of_mem _)

/-- A device after a write is an old one, or an old one with the cell written. -/
theorem State.mem_devices_write {s t : State} {a : Address} {v : Cell} {q : Ram}
    (h : s.write a v = .ok t) (hq : q ∈ t.devices) :
    q ∈ s.devices ∨ ∃ r ∈ s.devices, ∃ off, r.set off v = .ok q := by
  obtain ⟨d, off, r, -, hr, hoff, rfl⟩ := State.write_eq_ok h
  refine (List.mem_or_eq_of_mem_set hq).imp_right ?_
  rintro rfl
  exact ⟨r, List.mem_of_getElem? hr, off, Ram.set_of_lt v hoff⟩

theorem State.memoryWf_iff {s : State} : s.memoryWf = true ↔ ∀ r ∈ s.devices, r.wf = true :=
  List.all_eq_true

theorem State.write_memoryWf {s t : State} {a : Address} {v : Cell} (h : s.write a v = .ok t)
    (hs : s.memoryWf = true) : t.memoryWf = true := by
  rw [State.memoryWf_iff] at hs ⊢
  intro q hq
  obtain hq | ⟨r, hr, off, hset⟩ := State.mem_devices_write h hq
  · exact hs q hq
  · exact Ram.set_wf hset (hs r hr)

/-- `CELL_BOUNDS` admits every listed cell of the RAM. -/
def Ram.admitted (cfg : Config) (r : Ram) : Prop := ∀ p ∈ r.cells, cfg.admits p.2 = true

theorem State.cellsAdmitted_iff {s : State} :
    s.cellsAdmitted = true ↔
      s.config.admits s.acc = true ∧ ∀ r ∈ s.devices, r.admitted s.config := by
  simp [State.cellsAdmitted, Ram.admitted]

theorem Ram.admitted_set {cfg : Config} {r q : Ram} {off : Nat} {v : Cell}
    (h : r.set off v = .ok q) (hr : r.admitted cfg) (hv : cfg.admits v = true) :
    q.admitted cfg := by
  obtain ⟨-, rfl⟩ := Ram.set_eq_ok h
  intro p hp
  obtain hp | ⟨rfl, -⟩ := Memory.mem_write _ _ _ _ hp
  · exact hr p hp
  · exact hv

/-- Every cell of an admitted RAM is admitted, the unlisted ones where 0 is. -/
theorem Ram.admitted.read {cfg : Config} {r : Ram} (hr : r.admitted cfg)
    (hzero : cfg.admits falseCell = true) (off : Nat) : cfg.admits (r.cells.read off) = true := by
  obtain hread | hmem := r.cells.read_eq_zero_or_mem off
  · rw [hread]; exact hzero
  · exact hr _ hmem

/-- Whatever an instruction writes to `Acc` is admitted: checked, a truth cell, or a cell read. -/
theorem AccValue.admitted {s : State} {v : Cell} (h : AccValue s v)
    (hbounds : s.config.boundsValid = true) (hdev : ∀ r ∈ s.devices, r.admitted s.config) :
    s.config.admits v = true := by
  obtain ⟨hfalse, htrue⟩ := Bool.and_eq_true_iff.1 hbounds
  obtain hv | rfl | rfl | ⟨a, hread⟩ := h
  · exact hv
  · exact htrue
  · exact hfalse
  · obtain ⟨d, off, r, -, hr, -, rfl⟩ := State.read_eq_ok hread
    exact (hdev r (List.mem_of_getElem? hr)).read hfalse off

/-- A store keeps the memory canonical, and no other instruction touches it. -/
theorem exec_memoryWf {i : Instr} {s t : State} (h : exec i s = .next t)
    (hs : s.memoryWf = true) : t.memoryWf = true := by
  rcases exec_cases h with ⟨-, rfl⟩ | ⟨a, u, -, hw, rfl⟩ | ⟨v, -, -, rfl⟩ | ⟨k, rfl⟩ |
    ⟨a, -, rfl⟩ | ⟨a, -, -, rfl⟩
  case inr.inl => exact (State.write_memoryWf hw hs :)
  all_goals exact hs

/-- A store writes the admitted `Acc`, and a write of `Acc` is of an admitted value. -/
theorem exec_cellsAdmitted {i : Instr} {s t : State} (h : exec i s = .next t)
    (hbounds : s.config.boundsValid = true) (hs : s.cellsAdmitted = true) :
    t.cellsAdmitted = true := by
  obtain ⟨hacc, hdev⟩ := State.cellsAdmitted_iff.1 hs
  rcases exec_cases h with ⟨-, rfl⟩ | ⟨a, u, -, hw, rfl⟩ | ⟨v, -, hv, rfl⟩ | ⟨k, rfl⟩ |
    ⟨a, -, rfl⟩ | ⟨a, -, -, rfl⟩
  case inr.inl =>
    have hu : ∀ q ∈ u.devices, q.admitted s.config := fun q hq => by
      obtain hq | ⟨r, hr, off, hset⟩ := State.mem_devices_write hw hq
      · exact hdev q hq
      · exact Ram.admitted_set hset (hdev r hr) hacc
    rw [State.write_registers hw]
    exact State.cellsAdmitted_iff.2 ⟨hacc, hu⟩
  case inr.inr.inl => exact State.cellsAdmitted_iff.2 ⟨hv.admitted hbounds hdev, hdev⟩
  all_goals exact hs

theorem State.SameSetup.devicesExist {s t : State} (h : s.SameSetup t) :
    t.devicesExist = s.devicesExist := by
  obtain ⟨hconfig, hcap⟩ := h
  have hlen : t.devices.length = s.devices.length := by simpa using congrArg List.length hcap
  simp [State.devicesExist, hconfig, hlen]

theorem State.wf_iff {s : State} :
    s.wf = true ↔ s.config.wellFormed = true ∧ s.devicesExist = true ∧ s.memoryWf = true ∧
      s.cellsAdmitted = true ∧ s.fault = s.outcome.fault? := by
  simp [State.wf, State.faultAgrees, and_assoc]

theorem Config.boundsValid_of_wellFormed {cfg : Config} (h : cfg.wellFormed = true) :
    cfg.boundsValid = true := by
  simp only [Config.wellFormed, Bool.and_eq_true] at h
  obtain ⟨⟨-, hbounds⟩, -⟩ := h
  exact hbounds

/-- What every handler keeps and taking a fault leaves alone, a step keeps. -/
theorem step_keeps {P : State → Prop} {s t : State} (h : step s = .next t)
    (htake : ∀ k, P (s.takeFault k)) (hexec : ∀ i, exec i s = .next t → P t) : P t := by
  obtain ⟨-, ⟨k, -, rfl⟩ | ⟨i, -, hi⟩⟩ := step_cases h
  · exact htake k
  · exact hexec i hi

/-- Settles O9: the setup stays, every written cell is admitted and written canonically, and the
record follows the outcome. -/
theorem stepKeepsInvariant : Obligations.StepKeepsInvariant := by
  intro s t hs hstep
  obtain ⟨hconfig, hexist, hmem, hcells, -⟩ := State.wf_iff.1 hs
  have hsetup := step_sameSetup hstep
  refine State.wf_iff.2 ⟨?_, ?_, ?_, ?_, step_fault hstep⟩
  · rw [hsetup.left]; exact hconfig
  · rw [hsetup.devicesExist]; exact hexist
  · exact step_keeps (P := fun t => t.memoryWf = true) hstep (fun _ => hmem)
      fun i hi => exec_memoryWf hi hmem
  · have hbounds : s.config.boundsValid = true := Config.boundsValid_of_wellFormed hconfig
    exact step_keeps (P := fun t => t.cellsAdmitted = true) hstep (fun _ => hcells)
      fun i hi => exec_cellsAdmitted hi hbounds hcells

/-- Settles O10: the reference parameters and an empty RAM are evaluated. -/
theorem resetMeetsInvariant : Obligations.ResetMeetsInvariant := by
  unfold Obligations.ResetMeetsInvariant
  decide

end Sys2Proof.Machine

/-! O14 and O50: a write through the Bus, by a store or by the host (R47, R89, R131). -/

namespace Sys2Proof.Machine

theorem State.read_of_route_ok {s : State} {a : Address} {d off : Nat}
    (h : s.route a = .ok (d, off)) : s.read a = s.deviceGet d off := by
  simp [State.read, h]

theorem State.read_of_route_error {s : State} {a : Address} {k : Fault}
    (h : s.route a = .error k) : s.read a = .error k := by
  simp [State.read, h]

/-- A device's cell, where the device exists. -/
theorem State.deviceGet_of_getElem? {s : State} {d : Nat} {r : Ram} (h : s.devices[d]? = some r)
    (off : Nat) : s.deviceGet d off = r.get off := by
  simp [State.deviceGet, h]

section Write
variable {s t : State} {a : Address} {v : Cell}

theorem State.write_config (h : s.write a v = .ok t) : t.config = s.config := by
  rw [State.write_registers h]

theorem State.read_write_same (hwf : s.memoryWf = true) (h : s.write a v = .ok t) :
    t.read a = .ok v := by
  obtain ⟨d, off, r, hroute, hr, hoff, rfl⟩ := State.write_eq_ok h
  obtain ⟨hd, -⟩ := List.getElem?_eq_some_iff.1 hr
  have hdev : (s.setDevice d { r with cells := r.cells.write off v }).devices[d]? =
      some { r with cells := r.cells.write off v } := by simp [hd]
  rw [State.read_of_route_ok (s := s.setDevice _ _) hroute, State.deviceGet_of_getElem? hdev]
  have hrwf : r.wf = true := State.memoryWf_iff.1 hwf r (List.mem_of_getElem? hr)
  exact Ram.get_set_same hrwf (Ram.set_of_lt v hoff)

/-- A write changes no cell but the one it is routed to. -/
theorem State.deviceGet_write_other {e o : Nat} (h : s.write a v = .ok t)
    (hne : s.route a ≠ .ok (e, o)) : t.deviceGet e o = s.deviceGet e o := by
  obtain ⟨d, off, r, hroute, hr, hoff, rfl⟩ := State.write_eq_ok h
  by_cases hde : d = e
  · subst hde
    obtain ⟨hd, -⟩ := List.getElem?_eq_some_iff.1 hr
    have hdev : (s.setDevice d { r with cells := r.cells.write off v }).devices[d]? =
        some { r with cells := r.cells.write off v } := by simp [hd]
    rw [State.deviceGet_of_getElem? hdev, State.deviceGet_of_getElem? hr]
    exact Ram.get_set_other (Ram.set_of_lt v hoff) fun ho => hne (ho ▸ hroute)
  · simp [State.deviceGet, hde]

theorem State.read_write_other {b : Address} (h : s.write a v = .ok t)
    (hne : s.route b ≠ s.route a) : t.read b = s.read b := by
  have hroute : t.route b = s.route b := State.route_congr (State.write_config h) b
  cases hb : s.route b with
  | error k => rw [State.read_of_route_error hb, State.read_of_route_error (hroute.trans hb)]
  | ok p =>
    rw [State.read_of_route_ok hb, State.read_of_route_ok (hroute.trans hb)]
    exact State.deviceGet_write_other h fun ha => hne (hb.trans ha.symm)

end Write

/-- Settles O14: where the cell can be read the store is a write of `Acc`; where it cannot the write
has the same fault. -/
theorem stExecutes : Obligations.StExecutes := by
  intro s a hwf
  rw [exec_st_form]
  refine ⟨rfl, fun d hread => ?_, fun k hread => ⟨State.read_error hread, ?_⟩⟩
  · obtain ⟨u, hu⟩ := State.exists_write s.acc hread
    have hreg := State.write_registers hu
    refine ⟨_, State.accToCell_ok hu, ?_, ?_, ?_, ?_, ?_, rfl, fun b hb => ?_, fun e off he => ?_⟩
    · simpa using State.read_write_same hwf hu
    · rw [hreg]; rfl
    · rw [hreg]; rfl
    · rw [hreg]; rfl
    · rw [hreg]; rfl
    · simpa using State.read_write_other hu hb
    · exact (State.deviceGet_write_other hu he :)
  · exact State.accToCell_error (State.write_eq_error s.acc hread)

theorem State.hostRead_of_read_ok {s : State} {a : Address} {d : Cell} (h : s.read a = .ok d) :
    s.hostRead a = .ok d := by
  simp [State.hostRead, h]

theorem State.hostRead_of_read_error {s : State} {a : Address} {k : Fault}
    (h : s.read a = .error k) : s.hostRead a = .error (.accessFault k) := by
  simp [State.hostRead, h]

section HostWrite
variable {s t : State} {a : Address} {v : HostValue}

theorem State.hostWrite_ok (hv : s.config.admits (v.cell s.config.opcodes) = true)
    (h : s.write a (v.cell s.config.opcodes) = .ok t) : s.hostWrite a v = .ok t := by
  simp [State.hostWrite, checkCell_of_admits hv, h]

theorem State.hostWrite_busFault {k : Fault}
    (hv : s.config.admits (v.cell s.config.opcodes) = true) (h : s.read a = .error k) :
    s.hostWrite a v = .error (.accessFault k) := by
  simp [State.hostWrite, checkCell_of_admits hv, State.write_eq_error _ h]

theorem State.hostWrite_overflow (hv : s.config.admits (v.cell s.config.opcodes) = false) :
    s.hostWrite a v = .error (.accessFault (.cellOverflow (v.cell s.config.opcodes))) := by
  simp [State.hostWrite, checkCell_of_not_admits hv]

end HostWrite

/-- Settles O50: the host's read and write are the Bus's, and the check of the value comes before the
access. -/
theorem hostAccessGoesThroughBus : Obligations.HostAccessGoesThroughBus := by
  intro s a v hwf
  refine ⟨fun d => State.hostRead_of_read_ok, fun k => State.hostRead_of_read_error,
    fun t ht => ?_, fun hv d hread => ?_, fun hv k => State.hostWrite_busFault hv,
    State.hostWrite_overflow⟩
  · obtain ⟨-, hw⟩ := State.hostWrite_eq_ok ht
    have hreg := State.write_registers hw
    refine ⟨State.hostRead_of_read_ok (State.read_write_same hwf hw), ?_, ?_, ?_,
      fun b => State.read_write_other hw⟩
    all_goals rw [hreg]
  · obtain ⟨t, ht⟩ := State.exists_write (v.cell s.config.opcodes) hread
    exact ⟨t, State.hostWrite_ok hv ht⟩

end Sys2Proof.Machine

/-! O26 and O38 to O41: jumps, `Not` twice, and a machine that stores into its own program (R59, R103, R107, R109). -/

namespace Sys2Proof.Machine

/-- Settles O26: the target overwrites the advanced `IA`, and no cell is read. -/
theorem jmpExecutes : Obligations.JmpExecutes := fun _ _ => ⟨rfl, rfl⟩

/-- Settles O38: the first `Not` leaves 1 or 0, and the second tests that for 0. -/
theorem notIsInvolutiveOnTruth : Obligations.NotIsInvolutiveOnTruth := by
  intro s
  obtain ⟨-, hfirst⟩ := notExecutes s
  refine ⟨_, _, hfirst, (notExecutes _).2, ?_⟩
  by_cases hacc : s.acc = 0 <;> simp [hacc]

/-- Settles O39: after the store `IA` is at the stored cell, whose one cell is the instruction. -/
theorem storeToNextOpcodeIsFetched : Obligations.StoreToNextOpcodeIsFetched := by
  intro s d i hwf hfault hread hdec
  obtain ⟨-, hstore, -⟩ := stExecutes s (s.ia + 2) hwf
  obtain ⟨t, ht, hcell, hia, -, hconfig, htfault, -⟩ := hstore d hread
  obtain ⟨hone, -⟩ := stepRunsDecodedInstruction t i (htfault.trans hfault)
  exact ⟨t, ht, hone s.acc (hia ▸ hcell) (hconfig ▸ hdec)⟩

/-- Settles O40: the fetch has read the operand before the store writes its cell. -/
theorem storeToOwnOperandUsesOldOperand : Obligations.StoreToOwnOperandUsesOldOperand := by
  intro s hwf hfault hmap hopcode hoperand
  have hfetch : s.fetch = .ok (.st (s.ia + 1)) :=
    State.fetch_of_a hopcode (decodeOpcode_value hmap .st) hoperand
  obtain ⟨-, hstore, -⟩ := stExecutes s (s.ia + 1) hwf
  obtain ⟨t, ht, hcell, hia, -, -, -, hout, -⟩ := hstore _ hoperand
  exact ⟨t, (step_of_fetch_ok hfault hfetch).trans ht, hcell, hia, hout⟩

/-- Settles O41: the jump itself looks at no cell; the next fetch reads at the target. -/
theorem unmappedTargetFaultsAtNextFetch : Obligations.UnmappedTargetFaultsAtNextFetch := by
  intro s a hfault hfind
  obtain ⟨-, hjmp⟩ := jmpExecutes s a
  have hread : s.read a = .error (.unmappedAddress a) := by
    simp [State.read, State.route, hfind]
  exact ⟨_, hjmp, rfl, step_of_fetch_error hfault (State.fetch_of_opcodeFault hread)⟩

end Sys2Proof.Machine

/-! O37: rounding away from zero and the root, by sign (R92). -/

namespace Sys2Proof

theorem one_le_roundAway {q : Rat} (h : 0 < q) : 1 ≤ roundAway q := by
  rw [roundAway_of_pos h]
  exact Int.one_le_ceil_iff.2 h

theorem roundAway_le_neg_one {q : Rat} (h : q < 0) : roundAway q ≤ -1 := by
  rw [roundAway_of_neg h]
  exact neg_le_neg (Int.one_le_ceil_iff.2 (neg_pos.2 h))

theorem roundAway_eq_zero_iff {q : Rat} : roundAway q = 0 ↔ q = 0 := by
  refine ⟨fun h => ?_, fun h => h ▸ roundAway_zero⟩
  obtain hneg | hzero | hpos := lt_trichotomy q 0
  · have := roundAway_le_neg_one hneg; omega
  · exact hzero
  · have := one_le_roundAway hpos; omega

/-- The square of the root reaches `v`, so the root of a positive `v` is not 0. -/
theorem one_le_sqrtUp {v : Int} (h : 0 < v) : 1 ≤ sqrtUp v := by
  obtain ⟨⟨hnonneg, hsq⟩, -⟩ := sqrtUp_isLeast h.le
  by_contra hlt
  have hzero : sqrtUp v = 0 := by omega
  rw [hzero] at hsq
  omega

theorem sqrtUp_zero : sqrtUp 0 = 0 := by decide

/-- Settles O37: a ceiling of a positive number is at least 1, and so is the root of a positive
integer. -/
theorem conversionKeepsSignAndZero : Obligations.ConversionKeepsSignAndZero := by
  refine ⟨fun q => ⟨roundAway_eq_zero_iff, one_le_roundAway, roundAway_le_neg_one⟩,
    fun v hv => ⟨⟨fun h => ?_, fun h => h ▸ sqrtUp_zero⟩, one_le_sqrtUp⟩⟩
  by_contra hne
  have := one_le_sqrtUp (hv.lt_of_ne' hne)
  omega

end Sys2Proof

/-! O42 to O44: overlap of ranges, `attach`, and the order of the bus table (R45, R48). -/

namespace Sys2Proof

/-- The later of the two starts is the shared address. -/
theorem AddressRange.overlaps_iff {r q : AddressRange} :
    r.overlaps q = true ↔ ∃ a : Address, r.owns a = true ∧ q.owns a = true := by
  refine ⟨fun h => ?_, fun ⟨a, hr, hq⟩ => AddressRange.overlaps_of_owns hr hq⟩
  have hlt : ((max r.start q.start : Nat) : Int) < min (r.start + r.length) (q.start + q.length) := by
    rw [Nat.cast_max]
    exact of_decide_eq_true h
  obtain ⟨hr, hq⟩ := lt_min_iff.1 hlt
  exact ⟨max r.start q.start, AddressRange.owns_iff.2 ⟨le_max_left _ _, hr⟩,
    AddressRange.owns_iff.2 ⟨le_max_right _ _, hq⟩⟩

/-- Settles O42: the interval the test computes is the set of the shared addresses. -/
theorem overlapMeansSharedAddress : Obligations.OverlapMeansSharedAddress :=
  fun _ _ => AddressRange.overlaps_iff

/-- A permuted table is valid when the table is, since overlap is symmetric. -/
theorem busTableValid_of_perm {table table' : List Attachment} (hperm : table.Perm table')
    (h : busTableValid table = true) : busTableValid table' = true := by
  obtain ⟨hlen, hdisj⟩ := busTableValid_iff.1 h
  refine busTableValid_iff.2 ⟨fun e he => hlen e (hperm.mem_iff.2 he), ?_⟩
  exact hperm.pairwise hdisj fun hef => (AddressRange.overlaps_comm _ _).trans hef

/-- The search of a valid table finds the one owner, in whatever order it searches (R48). -/
theorem busFind_of_perm {table table' : List Attachment} (hperm : table.Perm table')
    (hvalid : busTableValid table = true) (a : Address) : busFind table' a = busFind table a := by
  cases hfind : busFind table a with
  | none =>
    exact busFind_eq_none fun e he => List.find?_eq_none.1 hfind e (hperm.mem_iff.2 he)
  | some e =>
    obtain ⟨he, howns⟩ := busFind_eq_some hfind
    exact busFind_of_owns (busTableValid_of_perm hperm hvalid) (hperm.mem_iff.1 he) howns

end Sys2Proof

namespace Sys2Proof.Machine

theorem State.attached_overlap_iff {s : State} {e : Attachment} :
    (s.config.busTable.any fun f => f.range.overlaps e.range) = true ↔
      ∃ f ∈ s.config.busTable, ∃ a, f.range.owns a = true ∧ e.range.owns a = true := by
  simp [AddressRange.overlaps_iff]

/-- Settles O43: the three checks come in this order, and the overlap they compute is a shared
address. -/
theorem attachChecksRanges : Obligations.AttachChecksRanges := by
  intro s e hdev
  refine ⟨fun hneg => ?_, fun hlen hshared => ?_, fun hlen hapart => ?_⟩
  · exact if_pos hneg
  · have hany := State.attached_overlap_iff.2 hshared
    exact (if_neg hlen.not_gt).trans (if_pos hany)
  · have hany : ¬ (s.config.busTable.any fun f => f.range.overlaps e.range) = true := fun h => by
      obtain ⟨f, hf, a, hboth⟩ := State.attached_overlap_iff.1 h
      exact hapart f hf a hboth
    exact (if_neg hlen.not_gt).trans ((if_neg hany).trans (if_neg hdev.not_ge))

/-- What a write leaves of the devices depends on the routing and the devices alone. -/
theorem State.map_devices_write_congr {s u : State} {a : Address}
    (hroute : u.route a = s.route a) (hdev : u.devices = s.devices) (v : Cell) :
    (u.write a v).map State.devices = (s.write a v).map State.devices := by
  have hread : u.read a = s.read a := by simp only [State.read, State.deviceGet, hroute, hdev]
  cases hd : s.read a with
  | error k => rw [State.write_eq_error v hd, State.write_eq_error v (hread.trans hd)]
  | ok d =>
    obtain ⟨e, off, r, hs, hr, hoff, -⟩ := State.read_eq_ok hd
    rw [State.write_of_route hs hr hoff,
      State.write_of_route (hroute.trans hs) (hdev ▸ hr) hoff]
    simp [Except.map, hdev]

/-- Settles O44: both tables route every address alike. -/
theorem busOrderDoesNotMatter : Obligations.BusOrderDoesNotMatter := by
  intro s u hvalid hperm hdev a v
  have hroute : u.route a = s.route a := by
    simp only [State.route, busFind_of_perm hperm hvalid]
  refine ⟨?_, State.map_devices_write_congr hroute hdev v⟩
  simp only [State.read, State.deviceGet, hroute, hdev]

end Sys2Proof.Machine

/-! O11, O48, O49 and O51: the host's reset, load and debug view (R36, R37, R129, R130). -/

namespace Sys2Proof.Machine

/-- After a reset a device's cell reads 0, or faults as it did. -/
theorem State.deviceGet_hostReset (s : State) (d off : Nat) :
    s.hostReset.deviceGet d off = (s.deviceGet d off).map fun _ => 0 := by
  cases hr : s.devices[d]? with
  | none => simp [State.deviceGet, hr, Except.map]
  | some r =>
    have hclear : s.hostReset.devices[d]? = some r.clear := by simp [hr]
    rw [State.deviceGet_of_getElem? hr, State.deviceGet_of_getElem? hclear]
    by_cases hoff : off < r.capacity
    · rw [Ram.get_clear hoff, Ram.get_of_lt hoff]; rfl
    · rw [Ram.get_of_le (not_lt.1 hoff), Ram.get_of_le (r := r.clear) (not_lt.1 hoff)]; rfl

theorem State.read_hostReset (s : State) (a : Address) :
    s.hostReset.read a = (s.read a).map fun _ => 0 := by
  have hroute : s.hostReset.route a = s.route a := State.route_congr rfl a
  cases ha : s.route a with
  | error k => rw [State.read_of_route_error ha, State.read_of_route_error (hroute.trans ha)]; rfl
  | ok p =>
    rw [State.read_of_route_ok ha, State.read_of_route_ok (hroute.trans ha)]
    exact s.deviceGet_hostReset p.1 p.2

/-- Settles O48: every device is cleared, and neither the bus table nor a capacity changes. -/
theorem resetClears : Obligations.ResetClears := by
  intro s
  obtain ⟨hconfig, hcap⟩ := s.hostReset_sameSetup
  refine ⟨rfl, rfl, rfl, hconfig, hcap, fun e off d hget => ?_, fun a d hread => ?_,
    fun a k hread => ?_⟩
  · rw [State.deviceGet_hostReset, hget]; rfl
  · rw [State.read_hostReset, hread]; rfl
  · rw [State.read_hostReset, hread]; rfl

/-- A cleared device is a new one, so the capacities determine the cleared devices. -/
theorem map_clear_eq_map_new (devices : List Ram) :
    devices.map Ram.clear = (devices.map Ram.capacity).map Ram.new := by
  rw [List.map_map]
  rfl

theorem State.hostReset_of_isReference {s : State} (h : s.isReference = true) :
    s.hostReset = State.reset := by
  simp only [State.isReference, Bool.and_eq_true, decide_eq_true_eq] at h
  obtain ⟨hconfig, hcap⟩ := h
  have hdev : s.devices.map Ram.clear = [Ram.new referenceCapacity] := by
    rw [map_clear_eq_map_new, hcap]
    rfl
  simp only [State.hostReset, State.reset, hconfig, hdev]

/-- Settles O11: the reset state is the reset of itself, so its cells are cleared ones; construction
is evaluated. -/
theorem resetValues : Obligations.ResetValues := by
  refine ⟨rfl, rfl, rfl, fun a ha => ?_, rfl, by decide, fun s => State.hostReset_of_isReference⟩
  obtain ⟨hbelow, -⟩ := referenceMap State.reset (by decide) a 0
  obtain ⟨-, ⟨d, hread⟩, -⟩ := hbelow ha
  rw [← State.hostReset_of_isReference (s := State.reset) (by decide), State.read_hostReset, hread]
  rfl

theorem State.SameSetup.hasReferenceMap {s t : State} (h : s.SameSetup t) :
    t.hasReferenceMap = s.hasReferenceMap := by
  obtain ⟨hconfig, hcap⟩ := h
  simp only [State.hasReferenceMap, hconfig, hcap]

/-- Under the reference map no address but `a` itself is routed to the cell of an address below 256
(R53). -/
theorem State.route_ne_of_hasReferenceMap {s : State} (h : s.hasReferenceMap = true)
    {a b : Address} (ha : a < 256) (hne : b ≠ a) : s.route b ≠ s.route a := by
  intro hroute
  obtain ⟨hbelow, -⟩ := referenceMap s h a 0
  obtain ⟨hbelowb, habove⟩ := referenceMap s h b 0
  obtain ⟨hra, ⟨d, hread⟩, -⟩ := hbelow ha
  obtain hb | hb := lt_or_ge b 256
  · obtain ⟨hrb, -⟩ := hbelowb hb
    rw [hra, hrb] at hroute
    cases hroute
    exact hne rfl
  · obtain ⟨hreadb, -⟩ := habove hb
    have hsame : s.read b = s.read a := by simp only [State.read, hroute]
    rw [hreadb, hread] at hsame
    cases hsame

/-- Under the reference map consecutive cells that end below 256 are all written, and no other
address is (R130). -/
theorem State.writeCells_of_hasReferenceMap (cells : List Cell) {s : State} {a : Nat}
    (href : s.hasReferenceMap = true) (hwf : s.memoryWf = true) (hend : a + cells.length ≤ 256) :
    ∃ t, s.writeCells a cells = .ok t ∧ t = { s with devices := t.devices } ∧
      (∀ (n : Nat) (h : n < cells.length), t.read (a + n) = .ok cells[n]) ∧
      ∀ b : Nat, b < a ∨ a + cells.length ≤ b → t.read b = s.read b := by
  induction cells generalizing s a with
  | nil => exact ⟨s, rfl, rfl, nofun, fun _ _ => rfl⟩
  | cons c rest ih =>
    rw [List.length_cons] at hend
    have ha : a < 256 := by omega
    obtain ⟨hbelow, -⟩ := referenceMap s href a c
    obtain ⟨-, -, u, hw⟩ := hbelow ha
    have hrefu : u.hasReferenceMap = true := (State.write_sameSetup hw).hasReferenceMap.trans href
    obtain ⟨t, ht, hreg, hnew, hold⟩ :=
      ih (a := a + 1) hrefu (State.write_memoryWf hw hwf) (by omega)
    refine ⟨t, ?_, ?_, fun n hn => ?_, fun b hb => ?_⟩
    · simpa only [State.writeCells, hw] using ht
    · rw [hreg, State.write_registers hw]
    · cases n with
      | zero =>
        have hkept : t.read a = u.read a := hold a (.inl (Nat.lt_succ_self a))
        exact hkept.trans (State.read_write_same hwf hw)
      | succ n =>
        have hcell := hnew n (Nat.lt_of_succ_lt_succ hn)
        rw [Nat.add_assoc, Nat.add_comm 1 n] at hcell
        exact hcell
    · rw [List.length_cons] at hb
      have hne : b ≠ a := by omega
      rw [hold b (by omega)]
      exact State.read_write_other hw (State.route_ne_of_hasReferenceMap href ha hne)

theorem State.loadProgram_of_writeCells {s t : State} {values : List HostValue}
    (hlen : values.length ≤ s.ramCapacity)
    (hadm : ∀ v ∈ values, s.config.admits (v.cell s.config.opcodes) = true)
    (hw : s.writeCells 0 (values.map (HostValue.cell s.config.opcodes)) = .ok t) :
    s.loadProgram values = .ok t := by
  have hfind : (values.map (HostValue.cell s.config.opcodes)).find?
      (fun c => s.config.admits c = false) = none := by simpa using hadm
  simp only [State.loadProgram, hlen.not_gt, if_false, hfind, hw]

/-- A program with a value that is not admitted is refused by the first such value (R130). -/
theorem State.loadProgram_overflow {s : State} {values : List HostValue}
    (hlen : values.length ≤ s.ramCapacity)
    (hbad : ∃ v ∈ values, s.config.admits (v.cell s.config.opcodes) = false) :
    ∃ c, s.config.admits c = false ∧ c ∈ values.map (HostValue.cell s.config.opcodes) ∧
      s.loadProgram values = .error (.accessFault (.cellOverflow c)) := by
  cases hfind : (values.map (HostValue.cell s.config.opcodes)).find?
      fun c => s.config.admits c = false with
  | none =>
    obtain ⟨v, hv, hvbad⟩ := hbad
    have := List.find?_eq_none.1 hfind _ (List.mem_map_of_mem hv)
    simp [hvbad] at this
  | some c =>
    have hc : s.config.admits c = false := by simpa using List.find?_some hfind
    refine ⟨c, hc, List.mem_of_find?_eq_some hfind, ?_⟩
    simp only [State.loadProgram, hlen.not_gt, if_false, hfind]

theorem State.ramCapacity_of_hasReferenceMap {s : State} (h : s.hasReferenceMap = true) :
    s.ramCapacity = 256 := by
  obtain ⟨-, r, hdev, hcap⟩ := State.hasReferenceMap_iff.1 h
  simp [State.ramCapacity, hdev, Ram.len, hcap]

/-- Settles O49: the length is checked first, then every value, then the cells are written from
address 0. -/
theorem loadProgramLoads : Obligations.LoadProgramLoads := by
  intro s values
  refine ⟨fun hlong => if_pos hlong, State.loadProgram_overflow, fun href hwf hlen hadm => ?_⟩
  obtain ⟨t, hw, hreg, hnew, hold⟩ :=
    State.writeCells_of_hasReferenceMap (values.map (HostValue.cell s.config.opcodes)) (a := 0)
      href hwf (by simpa using hlen)
  have hcap : values.length ≤ s.ramCapacity := by
    rw [State.ramCapacity_of_hasReferenceMap href]
    exact hlen
  refine ⟨t, State.loadProgram_of_writeCells hcap hadm hw, fun n hn => ?_, fun a ha => ?_,
    ?_, ?_, ?_, ?_⟩
  · have hread := hnew n (by simpa using hn)
    rwa [Nat.zero_add, List.getElem_map] at hread
  · exact hold a (.inr (by simpa using ha))
  all_goals rw [hreg]

/-- Settles O51: each device's list has its cell at each offset below the capacity. -/
theorem inspectShowsState : Obligations.InspectShowsState := by
  intro s
  refine ⟨rfl, rfl, List.length_map _, fun d r hr => ⟨r.contents, ?_, ?_, fun off hoff => ?_⟩⟩
  · simp [State.inspect, hr]
  · simp [Ram.contents]
  · exact ⟨r.cells.read off, by simp [Ram.contents, hoff], Ram.get_of_lt hoff⟩

end Sys2Proof.Machine

/-! O53 to O58: how a run goes on and ends, and the time it takes (R132 to R139). -/

namespace Sys2Proof.Machine

theorem step_ne_refused (s : State) (r : Refusal) : step s ≠ .refused r := by
  intro h
  obtain ⟨-, t, ht⟩ | ⟨k, -, hk⟩ := stepAnswersOrStops s
  · rw [h] at ht; cases ht
  · rw [h] at hk; cases hk

theorem fault_of_step_fault {s : State} {k : Fault} (h : step s = .fault k) :
    s.fault = some k := by
  obtain ⟨-, t, ht⟩ | ⟨k', hfault, hk⟩ := stepAnswersOrStops s
  · rw [h] at ht; cases ht
  · rw [h] at hk; cases hk; exact hfault

theorem step_fault_eq_none {s t : State} (h : step s = .next t)
    (hout : ∀ k, t.outcome ≠ .faulted k) : t.fault = none := by
  rw [step_fault h]
  cases ho : t.outcome with
  | faulted k => exact absurd ho (hout k)
  | continued | halted => rfl

section Run
variable {K : Type} [Field K] [LinearOrder K]

/-! The loop's first iteration, by what its step answers. -/

section FirstStep
variable {s t : State} (period : Option K) (tick : Tick K) (ticks : List (Tick K))

theorem runLoop_of_step_fault {k : Fault} (h : step s = .fault k) :
    runLoop period (tick :: ticks) s = Run.ended (.faulted k) s tick := by
  simp [runLoop, h]

theorem runLoop_of_continued (h : step s = .next t) (hout : t.outcome = .continued) :
    runLoop period (tick :: ticks) s = (runLoop period ticks t).after tick period := by
  simp [runLoop, h, hout]

theorem runLoop_of_halted (h : step s = .next t) (hout : t.outcome = .halted) :
    runLoop period (tick :: ticks) s = Run.ended .halted t tick := by
  simp [runLoop, h, hout]

theorem runLoop_of_faulted {k : Fault} (h : step s = .next t) (hout : t.outcome = .faulted k) :
    runLoop period (tick :: ticks) s = Run.ended (.faulted k) t tick := by
  simp [runLoop, h, hout]

end FirstStep

/-- The ways an iteration starts: a fault is recorded already, or the step answers a next state with
one of the three outcomes. -/
inductive FirstStep (s : State) : Prop where
  | stopped (k : Fault) (hstep : step s = .fault k)
  | continued (t : State) (hstep : step s = .next t) (hout : t.outcome = .continued)
  | halted (t : State) (hstep : step s = .next t) (hout : t.outcome = .halted)
  | faulted (t : State) (k : Fault) (hstep : step s = .next t) (hout : t.outcome = .faulted k)

theorem firstStep (s : State) : FirstStep s := by
  cases hstep : step s with
  | fault k => exact .stopped k hstep
  | refused r => exact absurd hstep (step_ne_refused s r)
  | next t =>
    cases hout : t.outcome with
    | continued => exact .continued t hstep hout
    | halted => exact .halted t hstep hout
    | faulted k => exact .faulted t k hstep hout

/-! A run as the loop. -/

theorem run_of_fault {s : State} {k : Fault} (f : Option (Frequency K)) (ticks : List (Tick K))
    (h : s.fault = some k) : run f ticks s = Run.unstarted (.faulted k) s := by
  simp [run, h]

theorem run_none_eq_runLoop {s : State} (ticks : List (Tick K)) (h : s.fault = none) :
    run none ticks s = runLoop none ticks s := by
  simp [run, h]

theorem run_some_eq_runLoop {s : State} {f : Frequency K} {p : K} (ticks : List (Tick K))
    (h : s.fault = none) (hp : f.period? = some p) :
    run (some f) ticks s = runLoop (some p) ticks s := by
  simp [run, h, hp]

theorem run_of_badFrequency {s : State} {f : Frequency K} (ticks : List (Tick K))
    (h : s.fault = none) (hp : f.period? = none) :
    run (some f) ticks s = Run.unstarted .badFrequency s := by
  simp [run, h, hp]

theorem Frequency.period?_of_pos {hz : K} (h : 0 < hz) :
    (Frequency.finite hz).period? = some (10 ^ 9 / hz) := if_pos h

theorem Frequency.period?_of_nonpos {hz : K} (h : hz ≤ 0) :
    (Frequency.finite hz).period? = none := if_neg h.not_gt

/-- Two runs that differ in their times and diagnostics at most. -/
def Run.SameResults (r q : Run K) : Prop :=
  r.result = q.result ∧ r.state = q.state ∧ r.continued = q.continued

theorem Run.SameResults.after {r q : Run K} (h : r.SameResults q) (tick tick' : Tick K)
    (period period' : Option K) : (r.after tick period).SameResults (q.after tick' period') := by
  obtain ⟨hresult, hstate, hcontinued⟩ := h
  exact ⟨hresult, hstate, congrArg (· + 1) hcontinued⟩

/-- The loop's steps depend on the number of ticks, not on the ticks or the period. -/
theorem runLoop_sameResults (period period' : Option K) {ticks ticks' : List (Tick K)}
    (hlen : ticks.length = ticks'.length) (s : State) :
    (runLoop period ticks s).SameResults (runLoop period' ticks' s) := by
  induction ticks generalizing ticks' s with
  | nil =>
    obtain rfl := List.length_eq_zero_iff.1 hlen.symm
    exact ⟨rfl, rfl, rfl⟩
  | cons tick ticks ih =>
    obtain ⟨tick', ticks', rfl⟩ := List.exists_cons_of_length_eq_add_one hlen.symm
    cases firstStep s with
    | stopped k hstep =>
      rw [runLoop_of_step_fault _ _ _ hstep, runLoop_of_step_fault _ _ _ hstep]
      exact ⟨rfl, rfl, rfl⟩
    | continued t hstep hout =>
      rw [runLoop_of_continued _ _ _ hstep hout, runLoop_of_continued _ _ _ hstep hout]
      exact (ih (Nat.succ.inj hlen) t).after _ _ _ _
    | halted t hstep hout =>
      rw [runLoop_of_halted _ _ _ hstep hout, runLoop_of_halted _ _ _ hstep hout]
      exact ⟨rfl, rfl, rfl⟩
    | faulted t k hstep hout =>
      rw [runLoop_of_faulted _ _ _ hstep hout, runLoop_of_faulted _ _ _ hstep hout]
      exact ⟨rfl, rfl, rfl⟩

/-- A run ends with its fault recorded, or halted with none; one still running has had `Continue` of
each of its `n` steps (R116, R135). -/
structure Run.EndsWell (r : Run K) (n : Nat) : Prop where
  faulted : ∀ k, r.result = .faulted k → r.state.fault = some k
  running : r.result = .running → r.continued = n
  not_refused : ∀ x, r.result ≠ .refused x
  halted : r.result = .halted → r.state.fault = none ∧ r.state.outcome = .halted

/-- An iteration in front changes neither the result nor the state. -/
theorem Run.EndsWell.after {r : Run K} {n : Nat} (h : r.EndsWell n) (tick : Tick K)
    (period : Option K) : (r.after tick period).EndsWell (n + 1) where
  faulted := h.faulted
  running hrun := congrArg (· + 1) (h.running hrun)
  not_refused := h.not_refused
  halted := h.halted

omit [Field K] [LinearOrder K] in
/-- A run that answers a recorded fault, before a step or after one. -/
theorem Run.endsWell_of_faulted {r : Run K} {k : Fault} (n : Nat) (hresult : r.result = .faulted k)
    (hfault : r.state.fault = some k) : r.EndsWell n where
  faulted k' hk' := by rw [hresult] at hk'; cases hk'; exact hfault
  running hrun := by rw [hresult] at hrun; cases hrun
  not_refused x hx := by rw [hresult] at hx; cases hx
  halted hhalt := by rw [hresult] at hhalt; cases hhalt

theorem runLoop_endsWell (period : Option K) (ticks : List (Tick K)) (s : State) :
    (runLoop period ticks s).EndsWell ticks.length := by
  induction ticks generalizing s with
  | nil => exact ⟨nofun, fun _ => rfl, nofun, nofun⟩
  | cons tick ticks ih =>
    cases firstStep s with
    | stopped k hstep =>
      rw [runLoop_of_step_fault _ _ _ hstep]
      exact Run.endsWell_of_faulted _ rfl (fault_of_step_fault hstep)
    | continued t hstep hout =>
      rw [runLoop_of_continued _ _ _ hstep hout]
      exact (ih t).after tick period
    | halted t hstep hout =>
      rw [runLoop_of_halted _ _ _ hstep hout]
      have hfault : t.fault = none := step_fault_eq_none hstep fun k => by rw [hout]; nofun
      exact ⟨nofun, nofun, nofun, fun _ => ⟨hfault, hout⟩⟩
    | faulted t k hstep hout =>
      rw [runLoop_of_faulted _ _ _ hstep hout]
      exact Run.endsWell_of_faulted _ rfl (by rw [Run.ended, step_fault hstep, hout]; rfl)

/-- A run that makes no step ends well, and any other is the loop. -/
theorem run_endsWell (f : Option (Frequency K)) (ticks : List (Tick K)) (s : State) :
    (run f ticks s).EndsWell ticks.length := by
  cases hfault : s.fault with
  | some k =>
    rw [run_of_fault f ticks hfault]
    exact Run.endsWell_of_faulted _ rfl hfault
  | none =>
    cases f with
    | none => rw [run_none_eq_runLoop ticks hfault]; exact runLoop_endsWell none ticks s
    | some f =>
      cases hp : f.period? with
      | none => rw [run_of_badFrequency ticks hfault hp]; exact ⟨nofun, nofun, nofun, nofun⟩
      | some p => rw [run_some_eq_runLoop ticks hfault hp]; exact runLoop_endsWell _ ticks s

/-! The safety predicate's first step, by what the step answers. -/

section Safe
variable {s t : State} (n : Nat)

theorem State.safeFor_of_step_fault {k : Fault} (h : step s = .fault k) :
    s.safeFor (n + 1) = false := by
  simp [State.safeFor, h]

theorem State.safeFor_of_continued (h : step s = .next t) (hout : t.outcome = .continued) :
    s.safeFor (n + 1) = t.safeFor n := by
  simp [State.safeFor, h, hout]

theorem State.safeFor_of_halted (h : step s = .next t) (hout : t.outcome = .halted) :
    s.safeFor (n + 1) = true := by
  simp [State.safeFor, h, hout]

theorem State.safeFor_of_faulted {k : Fault} (h : step s = .next t) (hout : t.outcome = .faulted k) :
    s.safeFor (n + 1) = false := by
  simp [State.safeFor, h, hout]

end Safe

theorem State.safeFor_iff_runLoop (period : Option K) (ticks : List (Tick K)) (s : State) :
    s.safeFor ticks.length = true ↔ ∀ k, (runLoop period ticks s).result ≠ .faulted k := by
  induction ticks generalizing s with
  | nil => exact iff_of_true rfl nofun
  | cons tick ticks ih =>
    rw [List.length_cons]
    cases firstStep s with
    | stopped k hstep =>
      rw [State.safeFor_of_step_fault _ hstep, runLoop_of_step_fault _ _ _ hstep]
      exact iff_of_false nofun fun h => h k rfl
    | continued t hstep hout =>
      rw [State.safeFor_of_continued _ hstep hout, runLoop_of_continued _ _ _ hstep hout]
      exact ih t
    | halted t hstep hout =>
      rw [State.safeFor_of_halted _ hstep hout, runLoop_of_halted _ _ _ hstep hout]
      exact iff_of_true rfl nofun
    | faulted t k hstep hout =>
      rw [State.safeFor_of_faulted _ hstep hout, runLoop_of_faulted _ _ _ hstep hout]
      exact iff_of_false nofun fun h => h k rfl

section Time
variable [IsStrictOrderedRing K]

/-- An iteration with a period takes at least the period: it sleeps for the rest, or its step overran
it (R134). -/
theorem Tick.period_le_duration (tick : Tick K) (p : K) : p ≤ tick.duration (some p) := by
  have hextra := tick.extra_nonneg
  simp only [Tick.duration]
  split <;> linarith

theorem runLoop_never_early (p : K) (ticks : List (Tick K)) (s : State) :
    ((runLoop (some p) ticks s).continued : K) * p ≤ (runLoop (some p) ticks s).time := by
  have hended (r : RunResult) (t : State) (tick : Tick K) :
      ((Run.ended r t tick).continued : K) * p ≤ (Run.ended r t tick).time := by
    simpa [Run.ended] using tick.elapsed_nonneg
  induction ticks generalizing s with
  | nil => simp [runLoop, Run.unstarted]
  | cons tick ticks ih =>
    cases firstStep s with
    | stopped k hstep => rw [runLoop_of_step_fault _ _ _ hstep]; exact hended _ _ _
    | halted t hstep hout => rw [runLoop_of_halted _ _ _ hstep hout]; exact hended _ _ _
    | faulted t k hstep hout => rw [runLoop_of_faulted _ _ _ hstep hout]; exact hended _ _ _
    | continued t hstep hout =>
      rw [runLoop_of_continued _ _ _ hstep hout]
      have hrest := ih t
      have htick := tick.period_le_duration p
      simp only [Run.after, Nat.cast_add, Nat.cast_one]
      linarith

end Time

end Run

/-- Settles O53: `run` and `step` look at the record before anything else. -/
theorem faultedMachineDoesNotRun : Obligations.FaultedMachineDoesNotRun :=
  fun _ _ _ _ _ _ f ticks hfault => ⟨run_of_fault f ticks hfault, step_of_fault hfault⟩

/-- Settles O54: a frequency with a period is finite and above 0, and one without ends the run before
the loop. -/
theorem badFrequencyRefused : Obligations.BadFrequencyRefused := by
  intro K _ _ _
  refine ⟨fun hz => Frequency.period?_of_pos, fun s f ticks hfault hbad => ?_⟩
  have hp : f.period? = none := by
    obtain ⟨hz, rfl, hle⟩ | ⟨b, rfl⟩ | rfl := hbad
    · exact Frequency.period?_of_nonpos hle
    · rfl
    · rfl
  exact run_of_badFrequency ticks hfault hp

/-- Settles O55: both runs return a recorded fault, or both are loops of the same steps. -/
theorem timingNeverChangesResults : Obligations.TimingNeverChangesResults := by
  intro K _ _ _ s f p ticks ticks' hp hlen
  change (run (some f) ticks s).SameResults (run none ticks' s)
  cases hfault : s.fault with
  | some k =>
    rw [run_of_fault _ _ hfault, run_of_fault _ _ hfault]
    exact ⟨rfl, rfl, rfl⟩
  | none =>
    rw [run_some_eq_runLoop ticks hfault hp, run_none_eq_runLoop ticks' hfault]
    exact runLoop_sameResults _ _ hlen s

/-- Settles O57: the record follows the outcome of the last step, and every earlier step returned
`Continue`. -/
theorem runEndsOnHaltOrFault : Obligations.RunEndsOnHaltOrFault := by
  intro K _ _ _ s f ticks
  obtain ⟨hfaulted, hrunning, hrefused, hhalted⟩ := run_endsWell f ticks s
  exact ⟨hfaulted, hrunning, hrefused, fun _ => hhalted⟩

/-- Settles O58: the predicate and the loop stop at the same step for the same reason. -/
theorem safeRunNeverFaults : Obligations.SafeRunNeverFaults := by
  intro K _ _ _ s ticks hfault
  rw [run_none_eq_runLoop ticks hfault]
  exact State.safeFor_iff_runLoop none ticks s

/-- Settles O56: every iteration that returned `Continue` took a period at least, and the last one
took no negative time. -/
theorem throttledRunIsNeverEarly : Obligations.ThrottledRunIsNeverEarly := by
  intro K _ _ _ s f p ticks hp
  cases hfault : s.fault with
  | some k => simp [run_of_fault _ _ hfault, Run.unstarted]
  | none =>
    rw [run_some_eq_runLoop ticks hfault hp]
    exact runLoop_never_early p ticks s

end Sys2Proof.Machine
